-- ==== Sys2Proof/Word.lean ====
section
/-!
DEFINITION. The widths of the machine's values and the two readings of a 16-bit pattern
(spec/00_scope.md R5, R6, R7; spec/20_memory.md R40).
-/

namespace Sys2Proof

/-- A 32-bit word: a command word (`CW`), a count or an index (`AW`), host data (R5, R13). -/
abbrev Word := BitVec 32

/-- A 16-bit sample, held and moved as a pattern (R7, R11). -/
abbrev Sample := BitVec 16

/-- A message character: one cell of space `M` (R42). -/
abbrev Byte := BitVec 8

/-- One bit of a bit frame: one cell of space `F`, and register `BITV` (R12, R43). -/
abbrev Bit := BitVec 1

/-- `uint16(s)` of R6: the pattern of a signed 16-bit value. -/
abbrev uint16 (s : Int) : Sample := BitVec.ofInt 16 s

/-- `sint16(u)` of R6: the signed value of a pattern; `0x8000` is `-32768`. -/
abbrev sint16 (p : Sample) : Int := p.toInt

end Sys2Proof
end

