-- ==== Sys2Proof/Syntax.lean ====
section
/-!
DEFINITION. The commands of the core and the actions of its host
(spec/30_encoding.md R60 to R62, R72; spec/70_reset_and_hazards.md R160, R161).
-/

namespace Sys2Proof

/-- The six commands, in the order of R62. Operands are implicit (R61): a command has no field. -/
inductive Instr where
  /-- `ENCF`: encode a frame, `M` to `F` (R83). -/
  | encf
  /-- `DECF`: decode a frame, `F` to `M` (R92). -/
  | decf
  /-- `GETLSB`: `BITV` gets bit 0 of `SAMP` (R102). -/
  | getlsb
  /-- `SETLSB`: bit 0 of `SAMP` gets `BITV` (R103). -/
  | setlsb
  /-- `EMBED`: the message of `M` into the samples of `S` (R114). -/
  | embed
  /-- `EXTRACT`: a message out of the samples of `S` into `M` (R124). -/
  | extract
deriving DecidableEq, Repr

/-- What the host does to the core, one action at a time: the script actions of R72 and the reset
input (R160, R161). A register is named by its number (R10, R74). -/
inductive HostAction where
  /-- `wr REG, value`: write a 32-bit word to a register; to register 0 it issues a command. -/
  | wr (reg : Nat) (value : Word)
  /-- `rd REG`: read a register. -/
  | rd (reg : Nat)
  /-- `ws idx, value`: write the sample cell `S[idx]`. -/
  | ws (index : Word) (value : Sample)
  /-- `rs idx`: read `S[idx]`. -/
  | rs (index : Word)
  /-- `wm idx, value`: write the message cell `M[idx]`. -/
  | wm (index : Word) (value : Byte)
  /-- `rm idx`: read `M[idx]`. -/
  | rm (index : Word)
  /-- `wf idx, bit`: write the frame cell `F[idx]`. -/
  | wf (index : Word) (value : Bit)
  /-- `rf idx`: read `F[idx]`. -/
  | rf (index : Word)
  /-- The reset input, while no command runs (R160). -/
  | reset
  /-- Write a word to `CMD` and apply reset before the command is complete (R161). -/
  | abandon (word : Word)
deriving DecidableEq, Repr

/-- What a host read returns: a register as a 32-bit word, or one cell (R13, R44, R53). -/
inductive ReadData where
  | reg (value : Word)
  | sample (value : Sample)
  | byte (value : Byte)
  | bit (value : Bit)
deriving DecidableEq, Repr

end Sys2Proof
end

