-- ==== Sys2Proof/WellFormed.lean ====
section
/-!
DEFINITION. What a well-formed command and a well-formed host script are
(spec/30_encoding.md R60, R61, R72).
-/

namespace Sys2Proof

/-- A command has no operand field that could be out of range (R60, R61): each of the six terms is
well-formed. -/
def Instr.wellFormed : Instr → Bool
  | .encf => true
  | .decf => true
  | .getlsb => true
  | .setlsb => true
  | .embed => true
  | .extract => true

/-- A script action names a register of R10: `wr` and `rd` carry a register NAME in R72, so a number
of 9 or above stands in no script. (The register port itself is total: R27.) -/
def HostAction.wellFormed : HostAction → Bool
  | .wr reg _ => decide (reg ≤ 8)
  | .rd reg => decide (reg ≤ 8)
  | .ws _ _ => true
  | .rs _ => true
  | .wm _ _ => true
  | .rm _ => true
  | .wf _ _ => true
  | .rf _ => true
  | .reset => true
  | .abandon _ => true

/-- A well-formed host script (R72). -/
def scriptWellFormed (script : List HostAction) : Bool := script.all HostAction.wellFormed

end Sys2Proof
end

