-- ==== Sys2Proof/Decode.lean ====
section
/-!
DEFINITION. The command decoder, total on 32-bit words, and the encoder
(spec/30_encoding.md R60, R62, R63, R64; spec/opcode_table.json).
-/

namespace Sys2Proof

/-- Field `OPC` of a command word (R60). -/
def opcField (w : Word) : BitVec 8 := w.extractLsb' 0 8

/-- Field `ZERO` of a command word (R60). -/
def zeroField (w : Word) : BitVec 24 := w.extractLsb' 8 24

/-- The operation codes of R62. -/
def opcTable : List (BitVec 8 × Instr) :=
  [(0x01#8, .encf), (0x02#8, .decf), (0x03#8, .getlsb),
   (0x04#8, .setlsb), (0x05#8, .embed), (0x06#8, .extract)]

/-- `decode(w)` of R64; `none` is `Illegal`. -/
def decode (w : Word) : Option Instr :=
  if zeroField w = 0#24 then opcTable.lookup (opcField w) else none

/-- The command word of a command: the match value of R62. -/
def encode : Instr → Word
  | .encf => 0x00000001#32
  | .decf => 0x00000002#32
  | .getlsb => 0x00000003#32
  | .setlsb => 0x00000004#32
  | .embed => 0x00000005#32
  | .extract => 0x00000006#32

/-- The command word whose bits the opcode table's numbering gives as the low `nbits` bits of `w`:
a command is one 32-bit word (R60), bit 0 its least significant bit. -/
def tableWord (nbits w : Nat) : Word := BitVec.ofNat 32 (w % 2 ^ nbits)

/-- The command the decoder reads from a row of spec/opcode_table.json. -/
def decodeTableWord (nbits w : Nat) : Option Instr := decode (tableWord nbits w)

end Sys2Proof
end

