-- ==== Sys2Proof/Config.lean ====
section
/-!
DEFINITION. What an implementation or a platform fixes, and the free values
(spec/00_scope.md R5; spec/92_eei_decisions.md; spec/93_implementation_defined.md U3, U4, U5).
The fixed parameters of R5 (16-bit samples, a 16-bit terminator, 8 bits a character, designated
channel 0, 32-bit counts) are written as numerals where they are used.
-/

namespace Sys2Proof

/-- The three completions of a last group of fewer than 8 bits (U5). -/
inductive TailPolicy where
  /-- The group is kept, completed with zero bits on the right. -/
  | padZeroRight
  /-- The group is discarded. -/
  | drop
  /-- The group is kept, read as a short binary number. -/
  | zeroExtendLeft
deriving DecidableEq, Repr

namespace Config

/-- `TAIL_POLICY` of R5, the spec's decided value (92_eei_decisions.md D13).
UNVERIFIED against the software that doc00 describes; notes/assumptions/9.md. -/
def tailPolicy : TailPolicy := .padZeroRight

/-- How many indices a cell space has: `2^AW` (R5, R40). -/
abbrev cellCount : Nat := 4294967296

/-- `REG_BASE`: the bus address of register 0, OPEN, the platform's (R5, R10). No value is known. -/
opaque regBase : Nat

/-- The bus address of a register (R10). -/
def regAddress (number : Nat) : Nat := regBase + 4 * number

/-- `S_MAP`: where the platform puts each cell of `S` in physical memory, by the cell's index. OPEN, the
platform's (R5, 92_eei_decisions.md D9), and invisible to every rule (20_memory.md R49). -/
opaque sMap : Nat → Nat

/-- `M_MAP`: as `sMap`, for space `M`. -/
opaque mMap : Nat → Nat

/-- `F_MAP`: as `sMap`, for space `F`. -/
opaque fMap : Nat → Nat

/-- How the platform lays a 16-bit cell into bytes. OPEN, the platform's (92_eei_decisions.md D17), and
invisible to every rule (20_memory.md R45). -/
opaque sampleBytes : Sample → List Byte

/-- FREE VALUE number `k`: what a cell of `F` in the write set of an abandoned `ENCF` holds, and the
draw between the old and the new pattern of a cell of an abandoned `EMBED` (R161, U4). -/
opaque freeBit : Nat → Bit

/-- FREE VALUE number `k`: what a cell of `M` in the write set of an abandoned `DECF` or `EXTRACT`
holds (R161, U4). -/
opaque freeByte : Nat → Byte

/-- FREE VALUE number `k`: what `STATUS.ERR` reads as while `BUSY = 1` (R22, U3). -/
opaque freeErr : Nat → BitVec 4

/-- FREE VALUE number `k`: what `STATUS.DSTATE` reads as while `BUSY = 1` (R22, U3). -/
opaque freeDstate : Nat → BitVec 2

end Config

end Sys2Proof
end

