-- ==== Sys2Proof/Machine/State.lean ====
section
/-!
DEFINITION. The state of the core, its host's script, and the reasons a step can stop
(spec/10_state.md R10 to R24, R29; spec/20_memory.md R40; spec/93_implementation_defined.md U1, U3, U4).
-/

namespace Sys2Proof.Machine

/-- `STATUS.ERR`: the result code of the last completed command (R23). Codes 6 to 15 are never
produced (R23, U6), so the type has no such value. -/
inductive ErrCode where
  | ok
  | capacityExceeded
  | noWatermarkFound
  | malformedBuffer
  | illegalCommand
  | incomplete
deriving DecidableEq, Repr

/-- `STATUS.DSTATE`: the state of the frame decoder (R23, R94). Value 3 is never produced. -/
inductive DState where
  | scanning
  | found
  | exhausted
deriving DecidableEq, Repr

/-- The fields of register `STATUS` (R21). The host reads them as one word: `Status.word`. -/
structure Status where
  /-- 1 from the acceptance of a command to its completion. -/
  busy : Bool
  /-- 1 from the completion of a command until the next is accepted. -/
  done : Bool
  /-- The result code. -/
  err : ErrCode
  /-- The decoder state. -/
  dstate : DState
deriving DecidableEq, Repr

/-- The three cell spaces (R40). -/
inductive Space where
  | s
  | m
  | f
deriving DecidableEq, Repr

/-- A cell space whose cells are `w` bits wide: the cells that hold a value, by index, indices
strictly rising (`Memory.wf`). A cell that is not listed holds no value (R29, U1);
notes/assumptions/3.md and 4.md. For `w = 8` this is a list of `Host.Cell`. -/
abbrev Memory (w : Nat) := List (Nat × BitVec w)

/-- The whole machine: the registers of R10 but for `CMD`, which stores nothing (R19), the hidden
accumulator of R24, the three spaces of R40, and the host's side. -/
structure State where
  /-- `STATUS` (R21). -/
  status : Status
  /-- `SAMP` (R11). -/
  samp : Sample
  /-- `BITV` (R12). -/
  bitv : Bit
  /-- `CHANS` (R14). -/
  chans : Word
  /-- `SLEN` (R15). -/
  slen : Word
  /-- `MLEN` (R16). -/
  mlen : Word
  /-- `FLEN` (R17). -/
  flen : Word
  /-- `IDX` (R18). -/
  idx : Word
  /-- `ACC`, the hidden accumulator, oldest bit first (R24). -/
  acc : List Bit
  /-- Space `S` (R41). -/
  sMem : Memory 16
  /-- Space `M` (R42). -/
  mMem : Memory 8
  /-- Space `F` (R43). -/
  fMem : Memory 1
  /-- The host's actions still to come, next first (R72). The model's own; notes/assumptions/1.md. -/
  script : List HostAction
  /-- What the host's reads returned, newest first. The model's own; notes/assumptions/2.md. -/
  reads : List ReadData
  /-- How many free values have been drawn. The model's own; notes/assumptions/8.md. -/
  draws : Nat
deriving DecidableEq, Repr

/-- Why the machine stops. -/
inductive Fault where
  /-- Raised by a command or a host read that reads a cell that nothing has written: such a cell
  holds no value (U1: "fault on read"). SAFE: the hardware would go on with an unspecified value. -/
  | unwrittenCell (space : Space) (index : Nat)
deriving DecidableEq, Repr

/-- Why the model gives a step no meaning. -/
inductive Refusal where
  /-- Raised by an arm of `exec` whose instruction has no meaning yet. SAFE. No arm does. -/
  | notModelled (mnemonic : String)
  /-- Raised by a host access, other than a read of `STATUS`, while `BUSY = 1` (R166, U3: the host
  has no such move). UNSAFE for a host that breaks R166: no claim speaks of one. -/
  | hostAccessWhileBusy
  /-- Raised by the reset action while `BUSY = 1` (R161, U4: reset has no move while `BUSY = 1`; a
  reset that meets a running command is the action `abandon`). SAFE. -/
  | resetWhileBusy
  /-- Raised by a step with `BUSY = 1` and no host action left: such a state is not final (R171), and the
  model holds no command in execution that could complete, since a command is one atomic step (R66);
  notes/assumptions/5.md. SAFE: no run from reset reaches it. -/
  | commandInExecution
deriving DecidableEq, Repr

/-- The machine right after reset (R29). Every register value is the spec's; the three fields of the
host's side are the model's (DESIGN CHOICE, notes/assumptions/1.md, 2.md, 8.md). -/
def State.reset : State where
  status := ⟨false, false, .ok, .scanning⟩
  samp := 0x0000#16
  bitv := 0#1
  chans := 1#32
  slen := 0#32
  mlen := 0#32
  flen := 0#32
  idx := 0#32
  acc := []
  sMem := []
  mMem := []
  fMem := []
  script := []
  reads := []
  draws := 0

end Sys2Proof.Machine
end

