-- ==== Sys2Proof/Machine/Ops.lean ====
section
/-!
DEFINITION. The named operations over cells and registers: `MemRead` and `MemWrite`
(spec/00_scope.md R6; spec/20_memory.md R44), acceptance, completion and failure of a command
(spec/30_encoding.md R66; spec/60_exceptions.md R144, R147), and the registers' reset
(spec/70_reset_and_hazards.md R160).
-/

namespace Sys2Proof.Machine

/-- The canonical form of a space: indices strictly rising, each a 32-bit index (R40, R49). -/
abbrev Memory.wf {w : Nat} (mem : Memory w) : Prop :=
  (mem.map Prod.fst).Pairwise (· < ·) ∧ ∀ c ∈ mem, c.1 < Config.cellCount

/-- `MemRead(X, i)` (R6): the value of cell `i`, or `none` if nothing has written it (U1). -/
def Memory.read {w : Nat} : Memory w → Nat → Option (BitVec w)
  | [], _ => none
  | (a, v) :: rest, i => if a = i then some v else Memory.read rest i

/-- `MemWrite(X, i, v)` (R6): exactly one cell changes (R44). -/
def Memory.write {w : Nat} : Memory w → Nat → BitVec w → Memory w
  | [], i, v => [(i, v)]
  | (a, x) :: rest, i, v =>
    if i < a then (i, v) :: (a, x) :: rest
    else if a = i then (i, v) :: rest
    else (a, x) :: Memory.write rest i v

/-- Write the cells `i`, `i + 1`, ... in ascending order (R50). -/
def Memory.writeFrom {w : Nat} (mem : Memory w) (i : Nat) : List (BitVec w) → Memory w
  | [] => mem
  | v :: vs => (mem.write i v).writeFrom (i + 1) vs

/-- `MemRead` as a command makes it: a cell that nothing has written holds no value, and the command
that reads it stops (U1). -/
def Memory.fetch {w : Nat} (mem : Memory w) (space : Space) (i : Nat) : Except Fault (BitVec w) :=
  match mem.read i with
  | some v => .ok v
  | none => .error (.unwrittenCell space i)

/-- Step 1 of the command cycle, "accept" (R66). It is also all there is of a return from a failure:
accepting a command clears `ERR` (R147). -/
def State.accept (s : State) : State :=
  { s with status := ⟨true, false, .ok, .scanning⟩, idx := 0#32, acc := [] }

/-- Step 4 of the command cycle, "complete", with its result code (R66); `IDX` and `DSTATE` stay as
the command's rule set them. The accumulator is discarded (R24; notes/assumptions/12.md). -/
def State.complete (s : State) (err : ErrCode) : State :=
  { s with status := ⟨false, true, err, s.status.dstate⟩, acc := [] }

/-- `fail E`: what a failure does, the core's "trap entry" (R144). `IDX` and `DSTATE` stay as the
command's rule set them; no cell and no operand register is written; control goes nowhere. -/
def State.fail (s : State) (err : ErrCode) : State := s.complete err

/-- A word that is no command: accepted, then `fail ILLEGAL_COMMAND` (R66, R143). -/
def State.illegalCommand (s : State) : State := s.accept.fail .illegalCommand

/-- What the reset input does to a core that is idle: every register takes its reset value, no cell is
written (R160). The host's side is untouched (notes/assumptions/18.md). -/
def State.resetRegisters (s : State) : State :=
  { State.reset with
    sMem := s.sMem, mMem := s.mMem, fMem := s.fMem
    script := s.script, reads := s.reads, draws := s.draws }

/-- The host receives what it read. -/
def State.logRead (s : State) (data : ReadData) : State := { s with reads := data :: s.reads }

end Sys2Proof.Machine
end

