-- ==== Sys2Proof/Machine/Flags.lean ====
section
/-!
DEFINITION. Register `STATUS` as one word: the codes of `ERR` and `DSTATE` and the places of the fields
(spec/10_state.md R21, R22, R23).
-/

namespace Sys2Proof.Machine

/-- The number of a result code (R23). -/
def ErrCode.code : ErrCode → BitVec 4
  | .ok => 0#4
  | .capacityExceeded => 1#4
  | .noWatermarkFound => 2#4
  | .malformedBuffer => 3#4
  | .illegalCommand => 4#4
  | .incomplete => 5#4

/-- The number of a decoder state (R23). -/
def DState.code : DState → BitVec 2
  | .scanning => 0#2
  | .found => 1#2
  | .exhausted => 2#2

/-- `STATUS` from its fields' bits; bits 3:2 and 31:10 read 0 (R21). -/
def packStatus (busy done : Bool) (err : BitVec 4) (dstate : BitVec 2) : Word :=
  (0#22 ++ dstate ++ err ++ 0#2 ++ BitVec.ofBool done ++ BitVec.ofBool busy).setWidth 32

/-- `STATUS` as the host reads it while `BUSY = 0` (R21). -/
def Status.word (st : Status) : Word := packStatus st.busy st.done st.err.code st.dstate.code

/-- `STATUS` as the host reads it while `BUSY = 1`: only `BUSY` and `DONE` are defined, `ERR` and
`DSTATE` are free values (R22, U3). `k` numbers the draw. -/
def busyStatusWord (k : Nat) : Word := packStatus true false (Config.freeErr k) (Config.freeDstate k)

end Sys2Proof.Machine
end

