-- ==== Sys2Proof/Machine/Operands.lean ====
section
/-!
DEFINITION. The implicit operands of the commands (spec/30_encoding.md R61): the message in `M`, the
frame in `F`, the designated channel of `S`, and the checks on the lengths that describe them
(spec/20_memory.md R41 to R43; spec/42_embed.md R111, R112; spec/43_extract.md R121 to R123).
-/

namespace Sys2Proof.Machine

/-- `n` message cells from `M[j]` on, read in ascending order (R42, R50). -/
def State.readM (s : State) (j : Nat) : Nat → Except Fault (List Byte)
  | 0 => .ok []
  | n + 1 =>
    match s.mMem.fetch .m j with
    | .error r => .error r
    | .ok b =>
      match s.readM (j + 1) n with
      | .error r => .error r
      | .ok bs => .ok (b :: bs)

/-- The message `M[0 .. MLEN-1]` (R16, R42). -/
def State.message (s : State) : Except Fault (List Byte) := s.readM 0 s.mlen.toNat

/-- `8*MLEN + 16`, a natural number, no wrap (R83, R112, R113). -/
def State.required (s : State) : Nat := 8 * s.mlen.toNat + 16

/-- The malformed-buffer condition: `CHANS = 0` or `SLEN mod CHANS != 0` (R111, R121, R142). -/
def State.malformed (s : State) : Bool :=
  decide (s.chans.toNat = 0) || decide (s.slen.toNat % s.chans.toNat ≠ 0)

/-- `SLEN / CHANS`: the number of audio frames, the capacity, the bound of a scan (R41, R112, R122). -/
def State.available (s : State) : Nat := s.slen.toNat / s.chans.toNat

/-- The index in `S` of the designated channel's sample of audio frame `i`, `i*CHANS` (R41). -/
def State.sampleIndex (s : State) (i : Nat) : Nat := i * s.chans.toNat

/-- Bit `k` of the frame in `F` (R43, R92). -/
def State.frameBit (s : State) (k : Nat) : Except Fault Bit := s.fMem.fetch .f k

end Sys2Proof.Machine
end

