-- ==== Sys2Proof/Machine/Accessor.lean ====
section
/-!
DEFINITION. The sample bit accessor: `get_lsb`, `set_lsb` and the commands `GETLSB`, `SETLSB`
(spec/41_sample_bit_accessor.md). Bitwise on the 16-bit pattern, never by arithmetic (R7, R106).
-/

namespace Sys2Proof.Machine

/-- `get_lsb` on a pattern: bit 0, by the mask `0x0001` (R100). -/
def getLsb (p : Sample) : Bit := (p &&& 0x0001#16).setWidth 1

/-- `set_lsb` on a pattern: clear bit 0, OR in the new bit (R101). -/
def setLsb (p : Sample) (b : Bit) : Sample := (p &&& 0xFFFE#16) ||| b.setWidth 16

/-- `get_lsb(s)` of a signed sample: reinterpret, then take bit 0 (R100). -/
def getLsbSigned (s : Int) : Bit := getLsb (uint16 s)

/-- `set_lsb(s, b)` of a signed sample: reinterpret, set bit 0, reinterpret back (R101). -/
def setLsbSigned (s : Int) (b : Bit) : Int := sint16 (setLsb (uint16 s) b)

/-- `GETLSB` (R102). -/
def execGetlsb (s : State) : Host.Outcome State Fault Refusal :=
  let t := s.accept
  .next (({ t with bitv := getLsb t.samp, idx := 0#32 } : State).complete .ok)

/-- `SETLSB` (R103). -/
def execSetlsb (s : State) : Host.Outcome State Fault Refusal :=
  let t := s.accept
  .next (({ t with samp := setLsb t.samp t.bitv, idx := 0#32 } : State).complete .ok)

end Sys2Proof.Machine
end

