-- ==== Sys2Proof/Machine/FrameCodec.lean ====
section
/-!
DEFINITION. The frame codec: `encode_frame`, the decoder's state machine, `decode_frame`, `message_of`,
and the commands `ENCF`, `DECF` (spec/40_frame_codec.md). The terminator defect of R96 is kept.
-/

namespace Sys2Proof.Machine

/-- `byte_bits(b)`: most significant bit first (R80). -/
def byteBits (b : Byte) : List Bit :=
  [b.extractLsb' 7 1, b.extractLsb' 6 1, b.extractLsb' 5 1, b.extractLsb' 4 1,
   b.extractLsb' 3 1, b.extractLsb' 2 1, b.extractLsb' 1 1, b.extractLsb' 0 1]

/-- `encode_frame(msg)`: the characters' bits in order, then 16 zero bits (R81). -/
def encodeFrame : List Byte → List Bit
  | [] => List.replicate 16 0#1
  | b :: msg => byteBits b ++ encodeFrame msg

/-- `term_at(A, n)`: at least 16 bits, and the last 16 of the first `n` are all zero (R88). -/
def termAt (a : List Bit) (n : Nat) : Bool :=
  decide (16 ≤ n) && ((a.take n).drop (n - 16)).all (fun b => b == 0#1)

/-- The decoder of R94: its state and the bits accumulated so far, oldest first; `n` is their number
(R24). -/
structure Decoder where
  state : DState
  acc : List Bit
deriving DecidableEq, Repr

/-- The decoder before the first bit (R94). -/
def Decoder.initial (maxBits : Nat) : Decoder :=
  ⟨if maxBits = 0 then .exhausted else .scanning, []⟩

/-- `step(Scanning, n, b)` of R94: `Found` is tested before `Exhausted`; the two have no step. -/
def Decoder.step (maxBits : Nat) (d : Decoder) (b : Bit) : Decoder :=
  match d.state with
  | .scanning =>
    let acc := d.acc ++ [b]
    if termAt acc acc.length then ⟨.found, acc⟩
    else if acc.length = maxBits then ⟨.exhausted, acc⟩
    else ⟨.scanning, acc⟩
  | .found => d
  | .exhausted => d

/-- Feed the decoder bits `n`, `n + 1`, ... of a source, `n` the number it has consumed, until it leaves
`Scanning`; no bit is read after that (R90). The fuel bounds the number of bits. -/
def Decoder.scan (bits : Nat → Except Fault Bit) (maxBits : Nat) : Nat → Decoder → Except Fault Decoder
  | 0, d => .ok d
  | fuel + 1, d =>
    match d.state with
    | .scanning =>
      match bits d.acc.length with
      | .error r => .error r
      | .ok b => Decoder.scan bits maxBits fuel (d.step maxBits b)
    | .found => .ok d
    | .exhausted => .ok d

/-- `decode_frame(bits, max_bits)` (R90), as the run of the state machine of R94: it ends `found` with
`n = acc.length`, or `exhausted` with `max_bits` bits consumed. -/
def decodeFrame (bits : Nat → Except Fault Bit) (maxBits : Nat) : Except Fault Decoder :=
  Decoder.scan bits maxBits maxBits (Decoder.initial maxBits)

/-- The number that a group of bits writes, first bit most significant (R91). -/
def bitsValue (bits : List Bit) : Nat := bits.foldl (fun v b => 2 * v + b.toNat) 0

/-- The `r` bits of `a` from position `start` on, as a number (R91). -/
def groupValue (a : List Bit) (start r : Nat) : Nat := bitsValue ((a.drop start).take r)

/-- `message_of(A, n)` (R91), for each completion of the last group (U5). -/
def messageOf (policy : TailPolicy) (a : List Bit) (n : Nat) : List Byte :=
  let p := n - 16
  let q := p / 8
  let r := p % 8
  let whole := (List.range q).map fun j => BitVec.ofNat 8 (groupValue a (8 * j) 8)
  if r = 0 then whole
  else
    match policy with
    | .padZeroRight => whole ++ [BitVec.ofNat 8 (groupValue a (8 * q) r * 2 ^ (8 - r))]
    | .drop => whole
    | .zeroExtendLeft => whole ++ [BitVec.ofNat 8 (groupValue a (8 * q) r)]

/-- The end of a scan, shared by `DECF` (R92) and `EXTRACT` (R124): on `Found` the message goes to `M`
and its length to `MLEN`; else the command fails with `exhaustedErr` and writes neither. -/
def State.deliver (s : State) (d : Decoder) (exhaustedErr : ErrCode) : State :=
  let t : State :=
    { s with
      acc := d.acc, idx := BitVec.ofNat 32 d.acc.length
      status := { s.status with dstate := d.state } }
  match d.state with
  | .found =>
    let msg := messageOf Config.tailPolicy t.acc t.acc.length
    ({ t with mMem := t.mMem.writeFrom 0 msg, mlen := BitVec.ofNat 32 msg.length } : State).complete .ok
  | .scanning => t.fail exhaustedErr
  | .exhausted => t.fail exhaustedErr

/-- `ENCF` (R83, R86). -/
def execEncf (s : State) : Host.Outcome State Fault Refusal :=
  let t := s.accept
  if t.required > 2 ^ 32 - 1 then .next (t.fail .capacityExceeded)
  else
    match t.message with
    | .error r => .fault r
    | .ok msg =>
      .next (({ t with
        fMem := t.fMem.writeFrom 0 (encodeFrame msg)
        flen := BitVec.ofNat 32 t.required
        idx := BitVec.ofNat 32 t.required } : State).complete .ok)

/-- `DECF` (R92). -/
def execDecf (s : State) : Host.Outcome State Fault Refusal :=
  let t := s.accept
  match decodeFrame t.frameBit t.flen.toNat with
  | .error r => .fault r
  | .ok d => .next (t.deliver d .incomplete)

end Sys2Proof.Machine
end

