-- ==== Sys2Proof/Machine/Embed.lean ====
section
/-!
DEFINITION. The encoder orchestration: command `EMBED` (spec/42_embed.md R110 to R117).
-/

namespace Sys2Proof.Machine

/-- The loop of R114 from frame bit `i` on: each designated-channel sample is read, then rewritten with
the frame's bit in its LSB. `stride` is `CHANS`. -/
def embedBits (stride : Nat) (mem : Memory 16) (i : Nat) : List Bit → Except Fault (Memory 16)
  | [] => .ok mem
  | b :: bs =>
    match mem.fetch .s (i * stride) with
    | .error r => .error r
    | .ok v => embedBits stride (mem.write (i * stride) (setLsb v b)) (i + 1) bs

/-- `EMBED` (R114): the malformed check first (R111), then the capacity check (R112), then the writes. -/
def execEmbed (s : State) : Host.Outcome State Fault Refusal :=
  let t := s.accept
  if t.malformed then .next (t.fail .malformedBuffer)
  else if t.required > t.available then .next (t.fail .capacityExceeded)
  else
    match t.message with
    | .error r => .fault r
    | .ok msg =>
      match embedBits t.chans.toNat t.sMem 0 (encodeFrame msg) with
      | .error r => .fault r
      | .ok mem =>
        .next (({ t with sMem := mem, idx := BitVec.ofNat 32 t.required } : State).complete .ok)

end Sys2Proof.Machine
end

