-- ==== Sys2Proof/Machine/Extract.lean ====
section
/-!
DEFINITION. The decoder orchestration: command `EXTRACT` (spec/43_extract.md R120 to R129).
-/

namespace Sys2Proof.Machine

/-- The bit source of `EXTRACT`: bit `i` is `get_lsb` of the designated channel's sample `i` (R123). -/
def State.channelBit (s : State) (i : Nat) : Except Fault Bit :=
  match s.sMem.fetch .s (s.sampleIndex i) with
  | .error r => .error r
  | .ok v => .ok (getLsb v)

/-- `EXTRACT` (R124): the malformed check first (R121), then the scan. -/
def execExtract (s : State) : Host.Outcome State Fault Refusal :=
  let t := s.accept
  if t.malformed then .next (t.fail .malformedBuffer)
  else
    match decodeFrame t.channelBit t.available with
    | .error r => .fault r
    | .ok d => .next (t.deliver d .noWatermarkFound)

end Sys2Proof.Machine
end

