-- ==== Sys2Proof/Machine/Dispatch.lean ====
section
/-! DEFINITION. Dispatch: one command, one meaning (spec/30_encoding.md R62). -/

namespace Sys2Proof.Machine

def exec (i : Instr) (s : State) : Host.Outcome State Fault Refusal :=
  match i with
  | .encf => Sys2Proof.Machine.execEncf s
  | .decf => Sys2Proof.Machine.execDecf s
  | .getlsb => Sys2Proof.Machine.execGetlsb s
  | .setlsb => Sys2Proof.Machine.execSetlsb s
  | .embed => Sys2Proof.Machine.execEmbed s
  | .extract => Sys2Proof.Machine.execExtract s

end Sys2Proof.Machine
end

