-- ==== Sys2Proof/Machine/HostPort.lean ====
section
/-!
DEFINITION. The host's side: the register port (spec/10_state.md R10, R13 to R21, R27), the cell port
(spec/20_memory.md R53), the command cycle (spec/30_encoding.md R66), the reset input, and a reset that
meets a running command (spec/70_reset_and_hazards.md R160, R161).
-/

namespace Sys2Proof.Machine

/-- What the host reads from a register while `BUSY = 0` (R10, R13): `CMD` and the reserved numbers
read 0 (R19, R27). -/
def State.readReg (s : State) (number : Nat) : Word :=
  match number with
  | 0 => 0#32
  | 1 => s.status.word
  | 2 => s.samp.setWidth 32
  | 3 => s.bitv.setWidth 32
  | 4 => s.chans
  | 5 => s.slen
  | 6 => s.mlen
  | 7 => s.flen
  | 8 => s.idx
  | _ => 0#32

/-- A host write to a register other than `CMD` while `BUSY = 0`: `STATUS`, `IDX` and the reserved
numbers ignore it (R21, R18, R27); `SAMP` and `BITV` take the low bits (R13). A write to `CMD` stores
nothing (R19); the command it issues is `State.issue`. -/
def State.writeReg (s : State) (number : Nat) (d : Word) : State :=
  match number with
  | 0 => s
  | 1 => s
  | 2 => { s with samp := d.setWidth 16 }
  | 3 => { s with bitv := d.setWidth 1 }
  | 4 => { s with chans := d }
  | 5 => { s with slen := d }
  | 6 => { s with mlen := d }
  | 7 => { s with flen := d }
  | _ => s

/-- The command cycle of R66, one atomic step: decode the word and run the command, or fail with
`ILLEGAL_COMMAND`. (Each meaning accepts and completes: `State.accept`, `State.complete`.) -/
def State.issue (s : State) (w : Word) : Host.Outcome State Fault Refusal :=
  match decode w with
  | some i => exec i s
  | none => .next s.illegalCommand

/-- `n` free values from number `k` on, as a space's cells. -/
def drawn {w : Nat} (free : Nat → BitVec w) (k n : Nat) : List (BitVec w) :=
  (List.range n).map fun j => free (k + j)

/-- One sample of an abandoned `EMBED`: a draw `b` between its old pattern and the one `EMBED` would have
written (R161, U4). -/
def drawSample (written : Memory 16) (b : Bit) (old : Memory 16) (x : Nat) : Memory 16 :=
  match written.read x with
  | some v => if b = 1#1 then old.write x v else old
  | none => old

/-- The `n` designated-channel samples from frame `i` on of an abandoned `EMBED`; free bit number `k + i`
decides frame `i`'s (R161, U4). -/
def drawSamples (stride : Nat) (written : Memory 16) (k : Nat) (old : Memory 16) (i : Nat) :
    Nat → Memory 16
  | 0 => old
  | n + 1 =>
    drawSamples stride written k (drawSample written (Config.freeBit (k + i)) old (i * stride)) (i + 1) n

/-- The state after reset has met command `i`, issued in state `s` and never completed; `t` is what its
completion would have given (R161): the registers at their reset values, the cells `i` was entitled to
write (R28) drawn, every other cell as in `s`. A command that would fail was entitled to write none. -/
def State.abandoned (s : State) (i : Instr) (t : State) : State :=
  let r := s.resetRegisters
  if t.status.err = .ok then
    match i with
    | .encf =>
      { r with
        fMem := s.fMem.writeFrom 0 (drawn Config.freeBit s.draws t.flen.toNat)
        draws := s.draws + t.flen.toNat }
    | .decf =>
      { r with
        mMem := s.mMem.writeFrom 0 (drawn Config.freeByte s.draws t.mlen.toNat)
        draws := s.draws + t.mlen.toNat }
    | .extract =>
      { r with
        mMem := s.mMem.writeFrom 0 (drawn Config.freeByte s.draws t.mlen.toNat)
        draws := s.draws + t.mlen.toNat }
    | .embed =>
      { r with
        sMem := drawSamples s.chans.toNat t.sMem s.draws s.sMem 0 t.idx.toNat
        draws := s.draws + t.idx.toNat }
    | .getlsb => r
    | .setlsb => r
  else r

/-- The host writes `w` to `CMD` and applies reset before the command is complete (R161). An illegal
word has an empty write set (R143). -/
def State.abandon (s : State) (w : Word) : Host.Outcome State Fault Refusal :=
  match decode w with
  | none => .next s.resetRegisters
  | some i =>
    match exec i s with
    | .next t => .next (s.abandoned i t)
    | .fault r => .fault r
    | .refused r => .refused r

/-- A host read of a cell; a cell that nothing has written holds no value (R53, U1). -/
def State.collect (s : State) {w : Nat} (wrap : BitVec w → ReadData) (cell : Except Fault (BitVec w)) :
    Host.Outcome State Fault Refusal :=
  match cell with
  | .ok v => .next (s.logRead (wrap v))
  | .error r => .fault r

/-- A host action while `BUSY = 0`, when everything is permitted (R51, R53, R170). -/
def State.idleAction (s : State) (a : HostAction) : Host.Outcome State Fault Refusal :=
  match a with
  | .wr reg value => if reg = 0 then s.issue value else .next (s.writeReg reg value)
  | .rd reg => .next (s.logRead (.reg (s.readReg reg)))
  | .ws index value => .next { s with sMem := s.sMem.write index.toNat value }
  | .rs index => s.collect .sample (s.sMem.fetch .s index.toNat)
  | .wm index value => .next { s with mMem := s.mMem.write index.toNat value }
  | .rm index => s.collect .byte (s.mMem.fetch .m index.toNat)
  | .wf index value => .next { s with fMem := s.fMem.write index.toNat value }
  | .rf index => s.collect .bit (s.fMem.fetch .f index.toNat)
  | .reset => .next s.resetRegisters
  | .abandon word => s.abandon word

/-- A host action while `BUSY = 1`: only a read of `STATUS` is allowed, and of what it returns only
`BUSY = 1` and `DONE = 0` are defined (R22, R166); the host has no other move (U3, U4). -/
def State.busyAction (s : State) (a : HostAction) : Host.Outcome State Fault Refusal :=
  match a with
  | .rd reg =>
    if reg = 1 then .next ({ s with draws := s.draws + 1 }.logRead (.reg (busyStatusWord s.draws)))
    else .refused .hostAccessWhileBusy
  | .wr _ _ => .refused .hostAccessWhileBusy
  | .ws _ _ => .refused .hostAccessWhileBusy
  | .rs _ => .refused .hostAccessWhileBusy
  | .wm _ _ => .refused .hostAccessWhileBusy
  | .rm _ => .refused .hostAccessWhileBusy
  | .wf _ _ => .refused .hostAccessWhileBusy
  | .rf _ => .refused .hostAccessWhileBusy
  | .reset => .refused .resetWhileBusy
  | .abandon _ => .refused .hostAccessWhileBusy

/-- One host action (R72, R160, R166). -/
def State.hostAction (s : State) (a : HostAction) : Host.Outcome State Fault Refusal :=
  if s.status.busy then s.busyAction a else s.idleAction a

/-- The end of a script: the core, when it is idle, stays idle for ever, holding its state. A state with
`BUSY = 1` is never final (R171). -/
def State.afterScript (s : State) : Host.Outcome State Fault Refusal :=
  if s.status.busy then .refused .commandInExecution else .next s

/-- The next action of the host's script is taken and performed; after the last comes the end of the
script (R72, R171). -/
def State.advance (s : State) : Host.Outcome State Fault Refusal :=
  match s.script with
  | [] => s.afterScript
  | a :: rest => { s with script := rest }.hostAction a

/-- Put the opcode table's word where the next step finds it: the host's next action is `wr CMD, word`,
and the core is ready to accept it (`BUSY = 0`, R19); notes/assumptions/19.md. -/
def State.withCommand (s : State) (w : Word) : State :=
  { s with script := .wr 0 w :: s.script, status := { s.status with busy := false } }

end Sys2Proof.Machine
end

