-- ==== Sys2Proof/Machine/Step.lean ====
section
/-!
DEFINITION. One step of the machine: the host's next action (spec/30_encoding.md R66, R72;
spec/70_reset_and_hazards.md R171). The core fetches nothing (spec/10_state.md R20): what plays the
part of the next instruction is the word of the script's next `wr CMD`.
-/

namespace Sys2Proof.Machine

/-- One step. -/
def step (s : State) : Host.Outcome State Fault Refusal := s.advance

/-- The opcode-table word `w` as the host's next action, a write to `CMD`; notes/assumptions/19.md. -/
def State.withFetchWord (s : State) (nbits w : Nat) : State := s.withCommand (tableWord nbits w)

end Sys2Proof.Machine
end

