-- ==== Sys2Proof/Machine/Datapath.lean ====
section
/-!
DEFINITION. The reference datapath for the decoder (spec/40_frame_codec.md R97), which does not store
the accumulator. No step calls it: a statement says that it agrees with `decodeFrame`.
-/

namespace Sys2Proof.Machine

/-- The datapath's registers: the 16-bit shift window `WIN`, the count `n`, the 8-bit assembler `BYT`
with the count `g` of bits in it, and the bytes emitted so far (R97). -/
structure Datapath where
  win : BitVec 16
  n : Nat
  byt : Byte
  g : Nat
  bytes : List Byte
deriving DecidableEq, Repr

/-- Before the first bit. -/
def Datapath.initial : Datapath := ⟨0#16, 0, 0#8, 0, []⟩

/-- The assembler's part of a step: the bit that leaves the window, present only when `n >= 16`, is
shifted into `BYT` from the right; a full `BYT` is emitted (R97). -/
def Datapath.assemble (d : Datapath) : Datapath :=
  if d.n < 16 then d
  else
    let byt := d.byt <<< 1 ||| (d.win.extractLsb' 15 1).setWidth 8
    if d.g + 1 = 8 then { d with byt := byt, g := 0, bytes := d.bytes ++ [byt] }
    else { d with byt := byt, g := d.g + 1 }

/-- One consumed bit (R97). -/
def Datapath.shift (d : Datapath) (b : Bit) : Datapath :=
  { d.assemble with win := d.win <<< 1 ||| b.setWidth 16, n := d.n + 1 }

/-- `Found` (R97). -/
def Datapath.found (d : Datapath) : Bool := decide (16 ≤ d.n) && d.win == 0#16

/-- The message on `Found`: a partial group is emitted completed on the right (R97). -/
def Datapath.message (d : Datapath) : List Byte :=
  if d.g > 0 then d.bytes ++ [d.byt <<< (8 - d.g)] else d.bytes

/-- Run the datapath over the bits of a frame: the count and the message at the first `Found`, or
`none` when the bits run out. -/
def Datapath.run (d : Datapath) : List Bit → Option (Nat × List Byte)
  | [] => none
  | b :: bits =>
    let e := d.shift b
    if e.found then some (e.n, e.message) else e.run bits

end Sys2Proof.Machine
end

