-- ==== Sys2Proof/Machine/Script.lean ====
section
/-!
DEFINITION. Host scripts: the pseudo-actions and the encoding (spec/30_encoding.md R72, R73, R74).
-/

namespace Sys2Proof.Machine

/-- `cmd w`: write the word to `CMD`, then poll `STATUS`; in the untimed model the first read of the
poll succeeds (R73). -/
def scriptCmd (w : Word) : List HostAction := [.wr 0 w, .rd 1]

/-- `encf`, `decf`, `getlsb`, `setlsb`, `embed`, `extract` (R73). -/
def scriptCommand (i : Instr) : List HostAction := scriptCmd (encode i)

/-- A cell-writing action at the indices `k`, `k + 1`, ... -/
def scriptCells {α : Type} (write : Word → α → HostAction) (k : Nat) : List α → List HostAction
  | [] => []
  | v :: vs => write (BitVec.ofNat 32 k) v :: scriptCells write (k + 1) vs

/-- `msg b0 b1 ...`: the characters, then `wr MLEN` (R73). -/
def scriptMsg (bytes : List Byte) : List HostAction :=
  scriptCells .wm 0 bytes ++ [.wr 6 (BitVec.ofNat 32 bytes.length)]

/-- `samples v0 v1 ...`: signed values, stored as `uint16(v)`, then `wr SLEN` (R53, R72, R73). -/
def scriptSamples (values : List Int) : List HostAction :=
  scriptCells .ws 0 (values.map uint16) ++ [.wr 5 (BitVec.ofNat 32 values.length)]

/-- `frame b0 b1 ...`: the bits, then `wr FLEN` (R73). -/
def scriptFrame (bits : List Bit) : List HostAction :=
  scriptCells .wf 0 bits ++ [.wr 7 (BitVec.ofNat 32 bits.length)]

/-- Whether an action is a write, on a bus: a register write is the pair of a register number and a
32-bit word, a cell write a space, an index and a value (R74). -/
def isBusWrite : HostAction → Bool
  | .wr _ _ => true
  | .rd _ => false
  | .ws _ _ => true
  | .rs _ => false
  | .wm _ _ => true
  | .rm _ => false
  | .wf _ _ => true
  | .rf _ => false
  | .reset => false
  | .abandon _ => true

/-- The encoding of a script: the list of its bus writes, in order (R74). -/
def scriptEncoding (script : List HostAction) : List HostAction := script.filter isBusWrite

end Sys2Proof.Machine
end

