-- ==== Sys2Proof/Safety.lean ====
section
/-!
DEFINITION. What a legal state of the machine is, in the terms the statements use
(spec/10_state.md R22, R24; spec/43_extract.md R127; spec/60_exceptions.md R140).
-/

namespace Sys2Proof.Machine

/-- What `STATUS` and `IDX` can show between commands: no command is in execution (R66); before the
first command of a run everything is 0 (R22, R29); `FOUND` goes with `OK` only; `EXHAUSTED` with
`NO_WATERMARK_FOUND` and `INCOMPLETE` only (R127); a command that failed before any bit was processed
leaves `IDX = 0` (R140). -/
abbrev State.statusLegal (s : State) : Prop :=
  s.status.busy = false ∧
  (s.status.done = false → s.status.err = .ok ∧ s.status.dstate = .scanning ∧ s.idx = 0#32) ∧
  (s.status.dstate = .found → s.status.err = .ok) ∧
  (s.status.dstate = .exhausted ↔ s.status.err = .noWatermarkFound ∨ s.status.err = .incomplete) ∧
  (s.status.err = .capacityExceeded ∨ s.status.err = .malformedBuffer ∨
    s.status.err = .illegalCommand → s.idx = 0#32)

/-- The machine's invariant: the three spaces are in their canonical form, the accumulator is empty
between commands (R24), and `STATUS` and `IDX` are legal. -/
abbrev State.Inv (s : State) : Prop :=
  s.sMem.wf ∧ s.mMem.wf ∧ s.fMem.wf ∧ s.acc = [] ∧ s.statusLegal

/-- A stream's bits, consumed up to and with the first terminator: the last 16 are all zero, and no earlier
window of 16 is (R88, R90). -/
def EndsAtFirstTerminator (bits : List Bit) : Prop :=
  16 ≤ bits.length ∧
  (∀ k, bits.length - 16 ≤ k → k < bits.length → bits[k]? = some 0#1) ∧
  ∀ n, 16 ≤ n → n < bits.length → ∃ k, n - 16 ≤ k ∧ k < n ∧ bits[k]? = some 1#1

/-- No window of 16 consecutive bits of a stream is all zero (R88, R93). -/
def HoldsNoTerminator (bits : List Bit) : Prop :=
  ∀ n, 16 ≤ n → n ≤ bits.length → ∃ k, n - 16 ≤ k ∧ k < n ∧ bits[k]? = some 1#1

/-- What `DECF` and `EXTRACT` deliver for a stream consumed up to its first terminator: one byte for each
begun group of 8 of the bits before the terminator, first bit most significant, the last group completed
with zero bits on the right (R91; the completion is 92_eei_decisions.md D13); `len` is the number of bytes,
and the other message cells are as before (R92). -/
def DeliversMessage (bits : List Bit) (before after : Memory 8) (len : Nat) : Prop :=
  len = (bits.length - 16 + 7) / 8 ∧
  (∀ j, j < len → ∃ b, after.read j = some b ∧ ∀ k, k < 8 →
    b.extractLsb' (7 - k) 1 = if 8 * j + k < bits.length - 16 then bits.getD (8 * j + k) 0#1 else 0#1) ∧
  ∀ j, len ≤ j → after.read j = before.read j

end Sys2Proof.Machine
end

