-- ==== Sys2Proof/Certificates/Slice0/Obligations.lean ====
section
/-!
DEFINITION. The statements about this model, each a proposition for the provers. A docstring names the rule of
spec/ that a statement formalises or rests on; where a clause rests on a choice of the model it names the log
entry.
-/

open Sys2Proof Sys2Proof.Machine

/-! ## Encoding -/

/-- R62: a word is the named command if and only if it equals the command's match value. -/
def Obligations.CommandWordIffMatchValue : Prop :=
  ∀ w : Word,
    (decode w = some .encf ↔ w = 0x00000001#32) ∧ (decode w = some .decf ↔ w = 0x00000002#32) ∧
    (decode w = some .getlsb ↔ w = 0x00000003#32) ∧ (decode w = some .setlsb ↔ w = 0x00000004#32) ∧
    (decode w = some .embed ↔ w = 0x00000005#32) ∧ (decode w = some .extract ↔ w = 0x00000006#32)

/-- R64: `decode(w)` by the fields `w[31:8]` and `w[7:0]`. -/
def Obligations.DecodeByZeroAndOpc : Prop :=
  ∀ w : Word,
    (w.extractLsb' 8 24 ≠ 0#24 → decode w = none) ∧
    (w.extractLsb' 8 24 = 0#24 →
      (w.extractLsb' 0 8 = 0x01#8 → decode w = some .encf) ∧
      (w.extractLsb' 0 8 = 0x02#8 → decode w = some .decf) ∧
      (w.extractLsb' 0 8 = 0x03#8 → decode w = some .getlsb) ∧
      (w.extractLsb' 0 8 = 0x04#8 → decode w = some .setlsb) ∧
      (w.extractLsb' 0 8 = 0x05#8 → decode w = some .embed) ∧
      (w.extractLsb' 0 8 = 0x06#8 → decode w = some .extract) ∧
      ((w.extractLsb' 0 8).toNat = 0 ∨ 7 ≤ (w.extractLsb' 0 8).toNat → decode w = none))

/-- Decoder and encoder agree in both directions, for every well-formed command and every word (R62, R64). -/
def Obligations.DecodeInvertsEncode : Prop :=
  (∀ i : Instr, i.wellFormed = true → decode (encode i) = some i) ∧
  ∀ (w : Word) (i : Instr), decode w = some i → i.wellFormed = true ∧ encode i = w

/-- A few words of the spec's table of decoded words, legal and illegal (95_test_vectors.md section 2.6). -/
def Obligations.ListedWordsDecode : Prop :=
  decode 0x00000001#32 = some .encf ∧ decode 0x00000003#32 = some .getlsb ∧
  decode 0x00000006#32 = some .extract ∧ decode 0x00000000#32 = none ∧ decode 0x00000007#32 = none ∧
  decode 0x00000105#32 = none ∧ decode 0x80000003#32 = none ∧ decode 0xFFFFFFFF#32 = none

/-! ## The step -/

/-- R66: a write of a command's word to `CMD` while `BUSY = 0` runs that command, in the state whose script
has moved on (the script is the model's: notes/assumptions/1.md). -/
def Obligations.StepRunsDecodedCommand : Prop :=
  ∀ (s : State) (w : Word) (rest : List HostAction) (i : Instr),
    s.script = .wr 0 w :: rest → s.status.busy = false → decode w = some i →
      step s = exec i { s with script := rest }

/-- R143: an illegal word completes with `ILLEGAL_COMMAND` and reads and writes nothing else. -/
def Obligations.IllegalWordOnlyReports : Prop :=
  ∀ (s : State) (w : Word) (rest : List HostAction),
    s.script = .wr 0 w :: rest → s.status.busy = false → decode w = none →
      step s = .next { s with
        script := rest, status := ⟨false, true, .illegalCommand, .scanning⟩, idx := 0#32, acc := [] }

/-- R171: after the last action of the script the core, with no command in execution, stays idle, holding its
state (the script is the model's: notes/assumptions/1.md). -/
def Obligations.FinishedScriptStaysIdle : Prop :=
  ∀ s : State, s.script = [] → s.status.busy = false → step s = .next s

/-- R66, R22: when a write to `CMD` has a next state, that state is idle and done, whatever the word. The
accumulator's clause rests on notes/assumptions/12.md, and those on the model's own script, reads and draws on
notes/assumptions/1.md, 2.md and 8.md. (That commands do have a next state is said by each command's own
statement.) -/
def Obligations.IssuedCommandLeavesIdleAndDone : Prop :=
  ∀ (s t : State) (w : Word) (rest : List HostAction),
    s.script = .wr 0 w :: rest → s.status.busy = false → step s = .next t →
      t.status.busy = false ∧ t.status.done = true ∧ t.acc = [] ∧
      t.script = rest ∧ t.reads = s.reads ∧ t.draws = s.draws

/-! ## The sample bit accessor -/

/-- R100: `get_lsb(s) = uint16(s) AND 0x0001`, bit 0 of the pattern. -/
def Obligations.GetLsbIsBitZero : Prop :=
  (∀ p : Sample, getLsb p = p.extractLsb' 0 1) ∧
  ∀ s : Int, -32768 ≤ s → s ≤ 32767 →
    (getLsbSigned s).toNat = (if 0 ≤ s then s else s + 65536).toNat &&& 0x0001

/-- R101: `set_lsb(s, b)` clears bit 0 of `uint16(s)`, ORs in `b`, reinterprets; bits 15 to 1 stay. -/
def Obligations.SetLsbReplacesBitZero : Prop :=
  (∀ s : Int, -32768 ≤ s → s ≤ 32767 → ∀ b : Bit,
    let u := (if 0 ≤ s then s else s + 65536).toNat
    let u' := (u &&& 0xFFFE) ||| b.toNat
    setLsbSigned s b = if u' < 32768 then (u' : Int) else (u' : Int) - 65536) ∧
  ∀ (p : Sample) (b : Bit),
    (setLsb p b).extractLsb' 1 15 = p.extractLsb' 1 15 ∧ (setLsb p b).extractLsb' 0 1 = b

/-- R104: the seven laws of the accessor, for every signed 16-bit sample and all bits. -/
def Obligations.AccessorLaws : Prop :=
  ∀ s : Int, -32768 ≤ s → s ≤ 32767 → ∀ b c : Bit,
    getLsbSigned (setLsbSigned s b) = b ∧
    setLsbSigned s (getLsbSigned s) = s ∧
    setLsbSigned (setLsbSigned s b) c = setLsbSigned s c ∧
    (uint16 (setLsbSigned s b)).extractLsb' 1 15 = (uint16 s).extractLsb' 1 15 ∧
    ((getLsbSigned s).toNat : Int) = s - 2 * (s / 2) ∧
    setLsbSigned s b = 2 * (s / 2) + b.toNat ∧
    (setLsbSigned s b - s = -1 ↔ s % 2 = 1 ∧ b = 0#1) ∧
    (setLsbSigned s b - s = 1 ↔ s % 2 = 0 ∧ b = 1#1) ∧
    (setLsbSigned s b - s = -1 ∨ setLsbSigned s b - s = 0 ∨ setLsbSigned s b - s = 1) ∧
    -32768 ≤ setLsbSigned s b ∧ setLsbSigned s b ≤ 32767

/-- R105: the source's edge samples. -/
def Obligations.AccessorEdgeValues : Prop :=
  (getLsbSigned (-32768) = 0#1 ∧ setLsbSigned (-32768) 0#1 = -32768 ∧ setLsbSigned (-32768) 1#1 = -32767) ∧
  (getLsbSigned (-1) = 1#1 ∧ setLsbSigned (-1) 0#1 = -2 ∧ setLsbSigned (-1) 1#1 = -1) ∧
  (getLsbSigned 0 = 0#1 ∧ setLsbSigned 0 0#1 = 0 ∧ setLsbSigned 0 1#1 = 1) ∧
  (getLsbSigned 32767 = 1#1 ∧ setLsbSigned 32767 0#1 = 32766 ∧ setLsbSigned 32767 1#1 = 32767) ∧
  (uint16 (-32768) = 0x8000#16 ∧ uint16 (-32767) = 0x8001#16 ∧ uint16 (-2) = 0xFFFE#16 ∧
    uint16 (-1) = 0xFFFF#16 ∧ uint16 0 = 0x0000#16 ∧ uint16 1 = 0x0001#16 ∧
    uint16 32766 = 0x7FFE#16 ∧ uint16 32767 = 0x7FFF#16) ∧
  ∀ s ∈ [(-32768 : Int), -1, 0, 32767], ∀ b : Bit, getLsbSigned (setLsbSigned s b) = b

/-- R102: `GETLSB`, its word and its whole next state, from every state. -/
def Obligations.GetlsbReadsBitZero : Prop :=
  decode 0x00000003#32 = some .getlsb ∧ ∀ s : State, exec .getlsb s = .next { s with
    bitv := s.samp.extractLsb' 0 1, idx := 0#32,
    status := ⟨false, true, .ok, .scanning⟩, acc := [] }

/-- R103: `SETLSB`, its word and its whole next state, from every state. -/
def Obligations.SetlsbWritesBitZero : Prop :=
  decode 0x00000004#32 = some .setlsb ∧ ∀ s : State, exec .setlsb s = .next { s with
    samp := (s.samp &&& 0xFFFE#16) ||| s.bitv.setWidth 16, idx := 0#32,
    status := ⟨false, true, .ok, .scanning⟩, acc := [] }

/-! ## The frame codec -/

/-- R83, R80, R81: `ENCF` completes when the frame fits and the message is written, and leaves the frame in
`F`: each character most significant bit first, then 16 zeros; nothing else changes. -/
def Obligations.EncfWritesTheFrame : Prop :=
  ∀ s : State, s.mlen.toNat ≤ 536870909 → (∀ j, j < s.mlen.toNat → ∃ b, s.mMem.read j = some b) →
    ∃ t, exec .encf s = .next t ∧
      t.flen.toNat = 8 * s.mlen.toNat + 16 ∧ t.idx = t.flen ∧
      (∀ j b k, j < s.mlen.toNat → s.mMem.read j = some b → k < 8 →
        t.fMem.read (8 * j + k) = some (b.extractLsb' (7 - k) 1)) ∧
      (∀ k, k < 16 → t.fMem.read (8 * s.mlen.toNat + k) = some 0#1) ∧
      (∀ x, 8 * s.mlen.toNat + 16 ≤ x → t.fMem.read x = s.fMem.read x) ∧
      t = { s with
        status := ⟨false, true, .ok, .scanning⟩, acc := []
        flen := t.flen, idx := t.idx, fMem := t.fMem }

/-- R86: a frame that does not fit 32 bits makes `ENCF` fail and write no cell of `F` and not `FLEN`; a
shorter one fits. -/
def Obligations.EncfFailsWhenFrameTooLong : Prop :=
  ∀ s : State,
    (536870910 ≤ s.mlen.toNat → exec .encf s = .next { s with
      status := ⟨false, true, .capacityExceeded, .scanning⟩, idx := 0#32, acc := [] }) ∧
    (s.mlen.toNat ≤ 536870909 → 8 * s.mlen.toNat + 16 ≤ 2 ^ 32 - 8 ∧
      ∀ t, exec .encf s = .next t → t.status.err = .ok)

/-- R92, R90, R91: `DECF` consumes bits up to the first terminator within `FLEN` and delivers the message
(the completion of the last group: notes/assumptions/9.md); cells of `F` beyond need hold no value. -/
def Obligations.DecfDeliversMessage : Prop :=
  ∀ (s : State) (bits : List Bit),
    (∀ k, k < bits.length → s.fMem.read k = bits[k]?) → bits.length ≤ s.flen.toNat →
    EndsAtFirstTerminator bits →
      ∃ t, exec .decf s = .next t ∧ t.idx.toNat = bits.length ∧
        DeliversMessage bits s.mMem t.mMem t.mlen.toNat ∧
        t = { s with
          status := ⟨false, true, .ok, .found⟩, acc := []
          idx := t.idx, mlen := t.mlen, mMem := t.mMem }

/-- R92: without a terminator among the `FLEN` bits `DECF` fails with `INCOMPLETE`; `M` and `MLEN` keep their
values. -/
def Obligations.DecfIncomplete : Prop :=
  ∀ (s : State) (bits : List Bit),
    bits.length = s.flen.toNat → (∀ k, k < bits.length → s.fMem.read k = bits[k]?) →
    HoldsNoTerminator bits →
      exec .decf s = .next { s with
        status := ⟨false, true, .incomplete, .exhausted⟩, idx := s.flen, acc := [] }

/-- R140: `DECF` reports `INCOMPLETE` if and only if no run of 16 zeros ends within `F[0 .. FLEN-1]`, and
`OK` otherwise. -/
def Obligations.DecfIncompleteIffNoRun : Prop :=
  ∀ s t : State, exec .decf s = .next t →
    (t.status.err = .incomplete ∨ t.status.err = .ok) ∧
    (t.status.err = .incomplete ↔ ∀ n, 16 ≤ n → n ≤ s.flen.toNat →
      ∃ k, n - 16 ≤ k ∧ k < n ∧ s.fMem.read k = some 1#1)

/-- R95 (1) to (3), for `DECF`: the bit before the terminator is a one, the length is
`ceil((n - 16) / 8)`, each byte equals the 8 stream bits at its own position, the last byte is not 0. -/
def Obligations.FoundMessageFacts : Prop :=
  ∀ s t : State, exec .decf s = .next t → t.status.err = .ok →
    16 ≤ t.idx.toNat ∧ t.idx.toNat ≤ s.flen.toNat ∧
    (16 < t.idx.toNat → s.fMem.read (t.idx.toNat - 17) = some 1#1) ∧
    t.mlen.toNat = (t.idx.toNat - 16 + 7) / 8 ∧
    (∀ j k, j < t.mlen.toNat → k < 8 → ∃ b, t.mMem.read j = some b ∧
      s.fMem.read (8 * j + k) = some (b.extractLsb' (7 - k) 1)) ∧
    (∀ b, 0 < t.mlen.toNat → t.mMem.read (t.mlen.toNat - 1) = some b → b ≠ 0#8)

/-- R95 (4): decoding what `ENCF` wrote gives the same message if and only if the first `8*L + 8` bits of the
frame contain no 16 consecutive zeros. It rests on the completion of the last group with zero bits on the right
(92_eei_decisions.md D13, notes/assumptions/9.md). -/
def Obligations.EncfDecfRoundTrip : Prop :=
  ∀ s t : State, exec .encf s = .next t → t.status.err = .ok →
    ((∃ u, exec .decf t = .next u ∧ u.status.err = .ok ∧ u.mlen = s.mlen ∧
        ∀ j, j < s.mlen.toNat → u.mMem.read j = s.mMem.read j) ↔
      ∀ n, 16 ≤ n → n ≤ 8 * s.mlen.toNat + 8 → ∃ k, n - 16 ≤ k ∧ k < n ∧ t.fMem.read k = some 1#1)

/-- R96: the terminator defect is kept: two consecutive null bytes end the decoded message before them. -/
def Obligations.NullBytesTruncateMessage : Prop :=
  ∀ (s t : State) (j : Nat), exec .encf s = .next t → t.status.err = .ok → j + 1 < s.mlen.toNat →
    s.mMem.read j = some 0#8 → s.mMem.read (j + 1) = some 0#8 →
      ∃ u, exec .decf t = .next u ∧ u.status.err = .ok ∧ u.idx.toNat ≤ 8 * j + 16 ∧ u.mlen.toNat ≤ j

/-- R94: the decoder's step function, its initial state, and that `Found` and `Exhausted` have no step. -/
def Obligations.DecoderStateMachine : Prop :=
  (∀ maxBits : Nat, Decoder.initial maxBits = if maxBits = 0 then ⟨.exhausted, []⟩ else ⟨.scanning, []⟩) ∧
  (∀ (maxBits : Nat) (a : List Bit) (b : Bit),
    let a' := a ++ [b]
    let zeroRun := 16 ≤ a'.length ∧ ∀ k, a'.length - 16 ≤ k → k < a'.length → a'[k]? = some 0#1
    (zeroRun → Decoder.step maxBits ⟨.scanning, a⟩ b = ⟨.found, a'⟩) ∧
    (¬ zeroRun → a'.length = maxBits → Decoder.step maxBits ⟨.scanning, a⟩ b = ⟨.exhausted, a'⟩) ∧
    (¬ zeroRun → a'.length ≠ maxBits → Decoder.step maxBits ⟨.scanning, a⟩ b = ⟨.scanning, a'⟩)) ∧
  ∀ (maxBits : Nat) (a : List Bit) (b : Bit),
    Decoder.step maxBits ⟨.found, a⟩ b = ⟨.found, a⟩ ∧
    Decoder.step maxBits ⟨.exhausted, a⟩ b = ⟨.exhausted, a⟩

/-- R97: the reference datapath, which does not store the accumulator, agrees with `decode_frame` on every
finite bit source: the same outcome, the same count, the same message. -/
def Obligations.DatapathRefinesDecoder : Prop :=
  ∀ bits : List Bit,
    ∃ d, decodeFrame (fun k => .ok (bits.getD k 0#1)) bits.length = .ok d ∧
      (d.state = .found ∨ d.state = .exhausted) ∧
      Datapath.initial.run bits =
        if d.state = .found then some (d.acc.length, messageOf .padZeroRight d.acc d.acc.length) else none

/-- 93_implementation_defined.md U5: the three completions of the last group agree when there is no short
group, and else differ in length and last byte as tabulated (`r` leftover bits, first bit most significant). -/
def Obligations.TailPoliciesCompared : Prop :=
  ∀ (a : List Bit) (n : Nat), 16 ≤ n → n ≤ a.length →
    let q := (n - 16) / 8
    let r := (n - 16) % 8
    let pad := messageOf .padZeroRight a n
    let dropped := messageOf .drop a n
    let short := messageOf .zeroExtendLeft a n
    (r = 0 → dropped = pad ∧ short = pad ∧ pad.length = q) ∧
    (r ≠ 0 → pad.length = q + 1 ∧ dropped.length = q ∧ short.length = q + 1 ∧
      pad.take q = dropped ∧ short.take q = dropped ∧
      ∃ g : Byte, short[q]? = some g ∧ pad[q]? = some (g <<< (8 - r)) ∧ g.toNat < 2 ^ r ∧
        ∀ k, k < r → g.getLsbD (r - 1 - k) = decide (a[8 * q + k]? = some 1#1))

/-! ## EMBED -/

/-- R111, R121: a malformed buffer makes `EMBED` and `EXTRACT` fail before anything is read; an empty buffer
is not malformed and makes `EMBED` fail the capacity check. -/
def Obligations.MalformedBufferRejected : Prop :=
  ∀ s : State,
    (s.chans.toNat = 0 ∨ s.slen.toNat % s.chans.toNat ≠ 0 →
      exec .embed s = .next { s with
        status := ⟨false, true, .malformedBuffer, .scanning⟩, idx := 0#32, acc := [] } ∧
      exec .extract s = .next { s with
        status := ⟨false, true, .malformedBuffer, .scanning⟩, idx := 0#32, acc := [] }) ∧
    (s.slen.toNat = 0 → 1 ≤ s.chans.toNat →
      exec .embed s = .next { s with
        status := ⟨false, true, .capacityExceeded, .scanning⟩, idx := 0#32, acc := [] })

/-- R112: a frame longer than the capacity makes `EMBED` fail before any write, whether or not the message
is written; the sum does not wrap (R113). -/
def Obligations.EmbedCapacityExceeded : Prop :=
  ∀ s : State, s.chans.toNat ≠ 0 → s.slen.toNat % s.chans.toNat = 0 →
    s.slen.toNat / s.chans.toNat < 8 * s.mlen.toNat + 16 →
      exec .embed s = .next { s with
        status := ⟨false, true, .capacityExceeded, .scanning⟩, idx := 0#32, acc := [] }

/-- R114: `EMBED` completes when the buffer is well-formed, the frame fits (up to and with equality), and the
message and the samples are written; it rewrites the LSB of sample `i*CHANS` with frame bit `i`, and nothing
else changes. -/
def Obligations.EmbedWritesTheFrame : Prop :=
  ∀ s : State, s.chans.toNat ≠ 0 → s.slen.toNat % s.chans.toNat = 0 →
    8 * s.mlen.toNat + 16 ≤ s.slen.toNat / s.chans.toNat →
    (∀ j, j < s.mlen.toNat → ∃ b, s.mMem.read j = some b) →
    (∀ i, i < 8 * s.mlen.toNat + 16 → ∃ v, s.sMem.read (i * s.chans.toNat) = some v) →
      ∃ t, exec .embed s = .next t ∧ t.idx.toNat = 8 * s.mlen.toNat + 16 ∧
        (∀ j b k v, j < s.mlen.toNat → s.mMem.read j = some b → k < 8 →
          s.sMem.read ((8 * j + k) * s.chans.toNat) = some v →
          t.sMem.read ((8 * j + k) * s.chans.toNat) =
            some ((v &&& 0xFFFE#16) ||| (b.extractLsb' (7 - k) 1).setWidth 16)) ∧
        (∀ k v, k < 16 → s.sMem.read ((8 * s.mlen.toNat + k) * s.chans.toNat) = some v →
          t.sMem.read ((8 * s.mlen.toNat + k) * s.chans.toNat) = some (v &&& 0xFFFE#16)) ∧
        (∀ x, (∀ i, i < 8 * s.mlen.toNat + 16 → x ≠ i * s.chans.toNat) → t.sMem.read x = s.sMem.read x) ∧
        t = { s with
          status := ⟨false, true, .ok, .scanning⟩, acc := [], idx := t.idx, sMem := t.sMem }

/-- R115: the postcondition of a successful `EMBED`: the LSBs are the frame, bits 15 to 1 stay, every other
cell stays, each rewritten sample changes in value by at most 1. -/
def Obligations.EmbedPostcondition : Prop :=
  ∀ s t : State, exec .embed s = .next t → t.status.err = .ok →
    (∀ i, i < 8 * s.mlen.toNat + 16 → ∃ v v' f,
      s.sMem.read (i * s.chans.toNat) = some v ∧ t.sMem.read (i * s.chans.toNat) = some v' ∧
      (i < 8 * s.mlen.toNat → ∃ b, s.mMem.read (i / 8) = some b ∧ f = b.extractLsb' (7 - i % 8) 1) ∧
      (8 * s.mlen.toNat ≤ i → f = 0#1) ∧
      v'.extractLsb' 0 1 = f ∧ v'.extractLsb' 1 15 = v.extractLsb' 1 15 ∧
      v'.toInt - v.toInt ≤ 1 ∧ v.toInt - v'.toInt ≤ 1) ∧
    ∀ x, (∀ i, i < 8 * s.mlen.toNat + 16 → x ≠ i * s.chans.toNat) → t.sMem.read x = s.sMem.read x

/-- R117: a second `EMBED` with the same operands changes no cell and no register. -/
def Obligations.EmbedIsIdempotent : Prop :=
  ∀ s t : State, exec .embed s = .next t → t.status.err = .ok →
    ∃ u, exec .embed t = .next u ∧ (∀ x, u.sMem.read x = t.sMem.read x) ∧ u = { t with sMem := u.sMem }

/-- R113: when `EMBED` succeeds, the count and every index it used fit 32 bits. -/
def Obligations.EmbedCountsDoNotOverflow : Prop :=
  ∀ s t : State, exec .embed s = .next t → t.status.err = .ok →
    8 * s.mlen.toNat + 16 ≤ s.slen.toNat / s.chans.toNat ∧ s.slen.toNat / s.chans.toNat ≤ s.slen.toNat ∧
    t.idx.toNat = 8 * s.mlen.toNat + 16 ∧
    ∀ i, i < 8 * s.mlen.toNat + 16 →
      i * s.chans.toNat ≤ s.slen.toNat - s.chans.toNat ∧ i * s.chans.toNat < 2 ^ 32

/-! ## EXTRACT -/

/-- R124, R123, R91: `EXTRACT` consumes the LSBs of channel 0 up to the first terminator and delivers the
message (the completion of the last group: notes/assumptions/9.md); later samples need hold no value. -/
def Obligations.ExtractDeliversMessage : Prop :=
  ∀ (s : State) (bits : List Bit), s.chans.toNat ≠ 0 → s.slen.toNat % s.chans.toNat = 0 →
    bits.length ≤ s.slen.toNat / s.chans.toNat →
    (∀ i, i < bits.length → ∃ v, s.sMem.read (i * s.chans.toNat) = some v ∧
      bits[i]? = some (v.extractLsb' 0 1)) →
    EndsAtFirstTerminator bits →
      ∃ t, exec .extract s = .next t ∧ t.idx.toNat = bits.length ∧
        DeliversMessage bits s.mMem t.mMem t.mlen.toNat ∧
        t = { s with
          status := ⟨false, true, .ok, .found⟩, acc := []
          idx := t.idx, mlen := t.mlen, mMem := t.mMem }

/-- R125: without a terminator `EXTRACT` fails with `NO_WATERMARK_FOUND`, `IDX = max_bits`, and delivers
nothing. -/
def Obligations.ExtractNoWatermark : Prop :=
  ∀ (s : State) (bits : List Bit), s.chans.toNat ≠ 0 → s.slen.toNat % s.chans.toNat = 0 →
    bits.length = s.slen.toNat / s.chans.toNat →
    (∀ i, i < bits.length → ∃ v, s.sMem.read (i * s.chans.toNat) = some v ∧
      bits[i]? = some (v.extractLsb' 0 1)) →
    HoldsNoTerminator bits →
      exec .extract s = .next { s with
        status := ⟨false, true, .noWatermarkFound, .exhausted⟩, idx := s.slen / s.chans, acc := [] }

/-- R129: on a well-formed buffer `EXTRACT` fails with `NO_WATERMARK_FOUND` if and only if the LSB stream of
`max_bits` bits contains no run of 16 consecutive zeros. -/
def Obligations.AbsenceDetection : Prop :=
  ∀ s t : State, exec .extract s = .next t → s.chans.toNat ≠ 0 → s.slen.toNat % s.chans.toNat = 0 →
    (t.status.err = .noWatermarkFound ↔ ∀ n, 16 ≤ n → n ≤ s.slen.toNat / s.chans.toNat →
      ∃ i v, n - 16 ≤ i ∧ i < n ∧ s.sMem.read (i * s.chans.toNat) = some v ∧ v.extractLsb' 0 1 = 1#1)

/-- R128: what `EMBED` wrote, `EXTRACT` returns, for every message without a `0x00` byte (`EmbedExtractInGeneral`
takes in the others). It rests on the completion of the last group with zero bits on the right
(92_eei_decisions.md D13, notes/assumptions/9.md). -/
def Obligations.EmbedExtractRoundTrip : Prop :=
  ∀ s t : State, exec .embed s = .next t → t.status.err = .ok →
    (∀ j, j < s.mlen.toNat → s.mMem.read j ≠ some 0#8) →
      ∃ u, exec .extract t = .next u ∧ u.status = ⟨false, true, .ok, .found⟩ ∧ u.mlen = s.mlen ∧
        (∀ j, u.mMem.read j = s.mMem.read j) ∧ u.sMem = t.sMem

/-! ## Whole-machine rules of the commands -/

/-- R127: what `DSTATE` shows at completion. -/
def Obligations.DstateAtCompletion : Prop :=
  ∀ (i : Instr) (s t : State), exec i s = .next t →
    (t.status.dstate = .found ↔ (i = .decf ∨ i = .extract) ∧ t.status.err = .ok) ∧
    (t.status.dstate = .exhausted ↔
      (i = .extract ∧ t.status.err = .noWatermarkFound) ∨ (i = .decf ∧ t.status.err = .incomplete)) ∧
    (t.status.dstate = .scanning ↔ (i ≠ .decf ∧ i ≠ .extract) ∨ t.status.err = .malformedBuffer)

/-- R144: failures are precise: the state after a failed command, an illegal word among them, is the state
before it, except `STATUS` and `IDX` (and the hidden accumulator, which is empty between commands). -/
def Obligations.FailedCommandIsPrecise : Prop :=
  ∀ (s t : State) (w : Word) (rest : List HostAction),
    s.script = .wr 0 w :: rest → s.status.busy = false → step s = .next t → t.status.err ≠ .ok →
      t = { s with script := rest, status := t.status, idx := t.idx, acc := [] } ∧
      t.status.busy = false ∧ t.status.done = true ∧
      t.status.dstate =
        (if t.status.err = .noWatermarkFound ∨ t.status.err = .incomplete then .exhausted else .scanning) ∧
      t.idx.toNat = (if t.status.err = .noWatermarkFound then s.slen.toNat / s.chans.toNat
        else if t.status.err = .incomplete then s.flen.toNat else 0)

/-- R140, R145: the result codes of the commands that scan nothing, with their conditions and priority. -/
def Obligations.ResultCodesWithoutScan : Prop :=
  ∀ s t : State,
    (exec .embed s = .next t → t.status.err =
      if s.chans.toNat = 0 ∨ s.slen.toNat % s.chans.toNat ≠ 0 then .malformedBuffer
      else if s.slen.toNat / s.chans.toNat < 8 * s.mlen.toNat + 16 then .capacityExceeded else .ok) ∧
    (exec .encf s = .next t → t.status.err =
      if 2 ^ 32 - 1 < 8 * s.mlen.toNat + 16 then .capacityExceeded else .ok) ∧
    (exec .getlsb s = .next t → t.status.err = .ok) ∧ (exec .setlsb s = .next t → t.status.err = .ok)

/-- R18: what `IDX` holds at completion. -/
def Obligations.IdxAtCompletion : Prop :=
  ∀ s t : State,
    (exec .encf s = .next t → t.status.err = .ok → t.idx.toNat = 8 * s.mlen.toNat + 16) ∧
    (exec .embed s = .next t → t.status.err = .ok → t.idx.toNat = 8 * s.mlen.toNat + 16) ∧
    (exec .decf s = .next t → t.status.err = .ok → 16 ≤ t.idx.toNat ∧ t.idx.toNat ≤ s.flen.toNat) ∧
    (exec .extract s = .next t → t.status.err = .ok →
      16 ≤ t.idx.toNat ∧ t.idx.toNat ≤ s.slen.toNat / s.chans.toNat) ∧
    (exec .decf s = .next t → t.status.err = .incomplete → t.idx = s.flen) ∧
    (exec .extract s = .next t → t.status.err = .noWatermarkFound →
      t.idx.toNat = s.slen.toNat / s.chans.toNat) ∧
    (exec .getlsb s = .next t ∨ exec .setlsb s = .next t → t.idx = 0#32) ∧
    ∀ i, exec i s = .next t → t.status.err = .malformedBuffer ∨ t.status.err = .capacityExceeded →
      t.idx = 0#32

/-- R25: no command reads `STATUS`, `IDX` or `ACC`: no residue of an earlier command reaches it. -/
def Obligations.NoResidueBetweenCommands : Prop :=
  ∀ (i : Instr) (s : State) (st : Status) (x : Word) (a : List Bit),
    exec i { s with status := st, idx := x, acc := a } = exec i s

/-- R147, R163: a failure leaves nothing to clear: the next command runs as if the failed one had not been
issued. -/
def Obligations.FailureLeavesNothingToClear : Prop :=
  ∀ (i j : Instr) (s t : State), exec i s = .next t → t.status.err ≠ .ok → exec j t = exec j s

/-- R28 (read sets) of `ENCF` and `EMBED`: two states that agree on a command's inputs agree on its
outputs. -/
def Obligations.EncodersReadOnlyTheirInputs : Prop :=
  ∀ s s' t : State, s'.mlen = s.mlen → (∀ j, j < s.mlen.toNat → s'.mMem.read j = s.mMem.read j) →
    (exec .encf s = .next t → ∃ t', exec .encf s' = .next t' ∧ t'.status = t.status ∧ t'.idx = t.idx ∧
      (t.status.err = .ok → t'.flen = t.flen ∧
        ∀ k, k < 8 * s.mlen.toNat + 16 → t'.fMem.read k = t.fMem.read k)) ∧
    (exec .embed s = .next t → s'.chans = s.chans → s'.slen = s.slen →
      (∀ i, i < 8 * s.mlen.toNat + 16 →
        s'.sMem.read (i * s.chans.toNat) = s.sMem.read (i * s.chans.toNat)) →
      ∃ t', exec .embed s' = .next t' ∧ t'.status = t.status ∧ t'.idx = t.idx ∧
        (t.status.err = .ok → ∀ i, i < 8 * s.mlen.toNat + 16 →
          t'.sMem.read (i * s.chans.toNat) = t.sMem.read (i * s.chans.toNat)))

/-- R28 (read sets) of `DECF` and `EXTRACT`, R123: only the bits up to the end of the scan reach the
outputs; for `EXTRACT` only bit 0 of channel 0's samples. -/
def Obligations.DecodersReadOnlyTheirInputs : Prop :=
  ∀ s s' t : State,
    (exec .decf s = .next t → s'.flen = s.flen →
      (∀ k, k < t.idx.toNat → s'.fMem.read k = s.fMem.read k) →
      ∃ t', exec .decf s' = .next t' ∧ t'.status = t.status ∧ t'.idx = t.idx ∧
        (t.status.err = .ok → t'.mlen = t.mlen ∧
          ∀ j, j < t.mlen.toNat → t'.mMem.read j = t.mMem.read j)) ∧
    (exec .extract s = .next t → s'.chans = s.chans → s'.slen = s.slen →
      (∀ i, i < t.idx.toNat → (s'.sMem.read (i * s.chans.toNat)).map (fun v => v.extractLsb' 0 1) =
        (s.sMem.read (i * s.chans.toNat)).map (fun v => v.extractLsb' 0 1)) →
      ∃ t', exec .extract s' = .next t' ∧ t'.status = t.status ∧ t'.idx = t.idx ∧
        (t.status.err = .ok → t'.mlen = t.mlen ∧
          ∀ j, j < t.mlen.toNat → t'.mMem.read j = t.mMem.read j))

/-- R28 (write sets), 92_eei_decisions.md D28: the registers and spaces outside a command's write set are
unchanged by it, whatever its result. -/
def Obligations.CommandWriteSets : Prop :=
  ∀ (i : Instr) (s t : State), exec i s = .next t →
    t.chans = s.chans ∧ t.slen = s.slen ∧
    (i ≠ .setlsb → t.samp = s.samp) ∧ (i ≠ .getlsb → t.bitv = s.bitv) ∧
    (i ≠ .encf → t.flen = s.flen ∧ t.fMem = s.fMem) ∧
    (i ≠ .decf → i ≠ .extract → t.mlen = s.mlen ∧ t.mMem = s.mMem) ∧
    (i ≠ .embed → t.sMem = s.sMem) ∧
    (∀ x, t.flen.toNat ≤ x → i = .encf → t.fMem.read x = s.fMem.read x) ∧
    (∀ x, t.mlen.toNat ≤ x → t.mMem.read x = s.mMem.read x) ∧
    t.script = s.script ∧ t.reads = s.reads ∧ t.draws = s.draws

/-- R48: the cells the core must leave untouched. -/
def Obligations.UntouchedCells : Prop :=
  (∀ s t : State, exec .embed s = .next t →
    (∀ x, (∀ i, i < 8 * s.mlen.toNat + 16 → x ≠ i * s.chans.toNat) → t.sMem.read x = s.sMem.read x) ∧
    ∀ x v v', s.sMem.read x = some v → t.sMem.read x = some v' → v'.extractLsb' 1 15 = v.extractLsb' 1 15) ∧
  (∀ s t : State, exec .extract s = .next t ∨ exec .decf s = .next t → t.sMem = s.sMem ∧ t.fMem = s.fMem) ∧
  ∀ (i : Instr) (s t : State), exec i s = .next t → t.status.err ≠ .ok →
    t.sMem = s.sMem ∧ t.mMem = s.mMem ∧ t.fMem = s.fMem

/-- 93_implementation_defined.md U1: a command never refuses, and it stops only at a cell of its read set
that nothing has written (notes/assumptions/3.md). -/
def Obligations.CommandsStopOnlyAtUnwrittenCells : Prop :=
  ∀ (i : Instr) (s : State), (∃ t, exec i s = .next t) ∨
    (∃ j, exec i s = .fault (.unwrittenCell .m j) ∧ (i = .encf ∨ i = .embed) ∧ j < s.mlen.toNat ∧
      s.mMem.read j = none) ∨
    (∃ k, exec i s = .fault (.unwrittenCell .f k) ∧ i = .decf ∧ k < s.flen.toNat ∧ s.fMem.read k = none) ∨
    (∃ j, exec i s = .fault (.unwrittenCell .s (j * s.chans.toNat)) ∧ (i = .embed ∨ i = .extract) ∧
      j < s.slen.toNat / s.chans.toNat ∧ (i = .embed → j < 8 * s.mlen.toNat + 16) ∧
      s.sMem.read (j * s.chans.toNat) = none)

/-! ## Reset and the host's ports -/

/-- R29: the state after reset: every register's value, and no cell holding a value. -/
def Obligations.ResetValues : Prop :=
  State.reset.readReg 0 = 0#32 ∧ State.reset.status.word = 0x00000000#32 ∧
  State.reset.status = ⟨false, false, .ok, .scanning⟩ ∧
  State.reset.samp = 0x0000#16 ∧ State.reset.bitv = 0#1 ∧ State.reset.chans = 1#32 ∧
  State.reset.slen = 0#32 ∧ State.reset.mlen = 0#32 ∧ State.reset.flen = 0#32 ∧
  State.reset.idx = 0#32 ∧ State.reset.acc = [] ∧
  ∀ x, State.reset.sMem.read x = none ∧ State.reset.mMem.read x = none ∧ State.reset.fMem.read x = none

/-- R160: the reset input, while no command runs, gives every register its reset value and touches no cell
(the host's side stays: notes/assumptions/18.md). -/
def Obligations.ResetInputRestoresRegisters : Prop :=
  ∀ (s : State) (rest : List HostAction), s.script = .reset :: rest → s.status.busy = false →
    step s = .next { s with
      script := rest, status := ⟨false, false, .ok, .scanning⟩, samp := 0#16, bitv := 0#1
      chans := 1#32, slen := 0#32, mlen := 0#32, flen := 0#32, idx := 0#32, acc := [] }

/-- R161: reset during a command: the registers take their reset values; each sample of an abandoned `EMBED`
holds its old or its new pattern; the other cells that may change are those of the command's write set (what
they hold is a free value: notes/assumptions/7.md). -/
def Obligations.ResetDuringCommand : Prop :=
  ∀ (s t : State) (w : Word) (rest : List HostAction),
    s.script = .abandon w :: rest → s.status.busy = false → step s = .next t →
      t = { s with
        script := rest, status := ⟨false, false, .ok, .scanning⟩, samp := 0#16, bitv := 0#1
        chans := 1#32, slen := 0#32, mlen := 0#32, flen := 0#32, idx := 0#32, acc := []
        sMem := t.sMem, mMem := t.mMem, fMem := t.fMem, draws := t.draws } ∧
      (∀ x, t.sMem.read x ≠ s.sMem.read x → decode w = some .embed ∧
        (∃ i, i < 8 * s.mlen.toNat + 16 ∧ x = i * s.chans.toNat) ∧
        ∃ u, exec .embed { s with script := rest } = .next u ∧ u.status.err = .ok ∧
          t.sMem.read x = u.sMem.read x) ∧
      (∀ x, t.fMem.read x ≠ s.fMem.read x → decode w = some .encf ∧ x < 8 * s.mlen.toNat + 16) ∧
      (∀ x, t.mMem.read x ≠ s.mMem.read x → ∃ i u, decode w = some i ∧ (i = .decf ∨ i = .extract) ∧
        exec i { s with script := rest } = .next u ∧ u.status.err = .ok ∧ x < u.mlen.toNat)

/-- R13: the host port of the two narrow registers. -/
def Obligations.NarrowRegistersOnThePort : Prop :=
  ∀ (s : State) (rest : List HostAction), s.status.busy = false →
    (∀ d, s.script = .wr 2 d :: rest → step s = .next { s with script := rest, samp := d.extractLsb' 0 16 }) ∧
    (∀ d, s.script = .wr 3 d :: rest → step s = .next { s with script := rest, bitv := d.extractLsb' 0 1 }) ∧
    (s.script = .rd 2 :: rest →
      step s = .next { s with script := rest, reads := .reg (0#16 ++ s.samp) :: s.reads }) ∧
    (s.script = .rd 3 :: rest →
      step s = .next { s with script := rest, reads := .reg (0#31 ++ s.bitv) :: s.reads })

/-- R27: reserved register numbers read 0 and ignore writes; reserved fields of `STATUS` read 0. -/
def Obligations.ReservedNumbersAndFields : Prop :=
  (∀ (s : State) (rest : List HostAction) (n : Nat), 9 ≤ n → s.status.busy = false →
    (∀ d, s.script = .wr n d :: rest → step s = .next { s with script := rest }) ∧
    (s.script = .rd n :: rest →
      step s = .next { s with script := rest, reads := .reg 0#32 :: s.reads })) ∧
  ∀ st : Status, st.word.extractLsb' 2 2 = 0#2 ∧ st.word.extractLsb' 10 22 = 0#22

/-- R21, R23: the places of the fields of `STATUS` and the numbers of the codes. -/
def Obligations.StatusWordLayout : Prop :=
  ∀ st : Status,
    st.word.getLsbD 0 = st.busy ∧ st.word.getLsbD 1 = st.done ∧
    st.word.extractLsb' 4 4 = (match st.err with
      | .ok => 0#4 | .capacityExceeded => 1#4 | .noWatermarkFound => 2#4
      | .malformedBuffer => 3#4 | .illegalCommand => 4#4 | .incomplete => 5#4) ∧
    st.word.extractLsb' 8 2 = (match st.dstate with
      | .scanning => 0#2 | .found => 1#2 | .exhausted => 2#2)

/-- R10, R14 to R19, R21: the 32-bit registers on the port: the four counts are read and written, `CMD`
reads 0, `STATUS` and `IDX` are read only. -/
def Obligations.RegisterPort : Prop :=
  ∀ (s : State) (rest : List HostAction), s.status.busy = false →
    (∀ d, s.script = .wr 4 d :: rest → step s = .next { s with script := rest, chans := d }) ∧
    (∀ d, s.script = .wr 5 d :: rest → step s = .next { s with script := rest, slen := d }) ∧
    (∀ d, s.script = .wr 6 d :: rest → step s = .next { s with script := rest, mlen := d }) ∧
    (∀ d, s.script = .wr 7 d :: rest → step s = .next { s with script := rest, flen := d }) ∧
    (∀ d, s.script = .wr 1 d :: rest ∨ s.script = .wr 8 d :: rest →
      step s = .next { s with script := rest }) ∧
    (∀ n v, s.script = .rd n :: rest →
      (n = 0 ∧ v = 0#32) ∨ (n = 1 ∧ v = s.status.word) ∨ (n = 4 ∧ v = s.chans) ∨ (n = 5 ∧ v = s.slen) ∨
        (n = 6 ∧ v = s.mlen) ∨ (n = 7 ∧ v = s.flen) ∨ (n = 8 ∧ v = s.idx) →
      step s = .next { s with script := rest, reads := .reg v :: s.reads })

/-- R53, R40, R44: the host's cell port: a write changes exactly one cell of one space, a read returns the
cell's value. -/
def Obligations.CellPort : Prop :=
  ∀ (s : State) (rest : List HostAction) (i : Word), s.status.busy = false →
    (∀ v, s.script = .ws i v :: rest → ∃ mem, step s = .next { s with script := rest, sMem := mem } ∧
      ∀ x, mem.read x = if x = i.toNat then some v else s.sMem.read x) ∧
    (∀ v, s.script = .wm i v :: rest → ∃ mem, step s = .next { s with script := rest, mMem := mem } ∧
      ∀ x, mem.read x = if x = i.toNat then some v else s.mMem.read x) ∧
    (∀ v, s.script = .wf i v :: rest → ∃ mem, step s = .next { s with script := rest, fMem := mem } ∧
      ∀ x, mem.read x = if x = i.toNat then some v else s.fMem.read x) ∧
    (∀ v, s.script = .rs i :: rest → s.sMem.read i.toNat = some v →
      step s = .next { s with script := rest, reads := .sample v :: s.reads }) ∧
    (∀ v, s.script = .rm i :: rest → s.mMem.read i.toNat = some v →
      step s = .next { s with script := rest, reads := .byte v :: s.reads }) ∧
    (∀ v, s.script = .rf i :: rest → s.fMem.read i.toNat = some v →
      step s = .next { s with script := rest, reads := .bit v :: s.reads })

/-- 93_implementation_defined.md U1: a host read of a cell that nothing has written stops
(notes/assumptions/3.md). -/
def Obligations.UnwrittenCellReadFaults : Prop :=
  ∀ (s : State) (rest : List HostAction) (i : Word), s.status.busy = false →
    (s.script = .rs i :: rest → s.sMem.read i.toNat = none → step s = .fault (.unwrittenCell .s i.toNat)) ∧
    (s.script = .rm i :: rest → s.mMem.read i.toNat = none → step s = .fault (.unwrittenCell .m i.toNat)) ∧
    (s.script = .rf i :: rest → s.fMem.read i.toNat = none → step s = .fault (.unwrittenCell .f i.toNat))

/-- R166, R22: while `BUSY = 1` the host has no move but a read of `STATUS`, which returns `BUSY = 1` and
`DONE = 0`; the other fields it returns are free values (notes/assumptions/6.md). -/
def Obligations.BusyHazard : Prop :=
  ∀ (s : State) (a : HostAction) (rest : List HostAction),
    s.script = a :: rest → s.status.busy = true →
      (a ≠ .rd 1 → ∃ r, step s = .refused r) ∧
      (a = .rd 1 → ∃ v : Word, v.getLsbD 0 = true ∧ v.getLsbD 1 = false ∧
        v.extractLsb' 2 2 = 0#2 ∧ v.extractLsb' 10 22 = 0#22 ∧
        step s = .next { s with script := rest, reads := .reg v :: s.reads, draws := s.draws + 1 })

/-! ## The invariant -/

/-- Every step keeps the invariant: the spaces stay in their canonical form, the accumulator is empty between
commands (R24), no command is in execution (R66), and `STATUS` and `IDX` stay legal (R22, R127, R140). -/
def Obligations.StepKeepsInvariant : Prop :=
  ∀ s t : State, s.Inv → step s = .next t → t.Inv

/-- The invariant holds after reset. -/
def Obligations.ResetMeetsInvariant : Prop := State.reset.Inv

/-! ## Final states, and the round trip in general -/

/-- R171: the final states, those that a step answers with themselves, are the ones with no action left and
`BUSY = 0`; a state with `BUSY = 1` is never final. (With no action left it is refused by name:
notes/assumptions/5.md. The script is the model's: notes/assumptions/1.md.) -/
def Obligations.FinalStates : Prop :=
  (∀ s : State, step s = .next s ↔ s.script = [] ∧ s.status.busy = false) ∧
  ∀ s : State, s.script = [] → s.status.busy = true → step s = .refused .commandInExecution

/-- R128 in general: after a successful `EMBED`, `EXTRACT` succeeds, and it returns the message if and only if the
payload followed by 8 zeros, as it stands in the LSBs of channel 0, holds no 16 consecutive zeros. It rests on the
completion of the last group with zero bits on the right (92_eei_decisions.md D13, notes/assumptions/9.md). -/
def Obligations.EmbedExtractInGeneral : Prop :=
  ∀ s t : State, exec .embed s = .next t → t.status.err = .ok →
    ∃ u, exec .extract t = .next u ∧ u.status = ⟨false, true, .ok, .found⟩ ∧ u.sMem = t.sMem ∧
      (u.mlen = s.mlen ∧ (∀ j, j < s.mlen.toNat → u.mMem.read j = s.mMem.read j) ↔
        ∀ n, 16 ≤ n → n ≤ 8 * s.mlen.toNat + 8 →
          ∃ i v, n - 16 ≤ i ∧ i < n ∧ t.sMem.read (i * s.chans.toNat) = some v ∧ v.extractLsb' 0 1 = 1#1)
end

