-- ==== Sys2Proof/Laws/Codec.lean ====
section
/-!
SUPPORT. What the pure functions of the frame codec do (spec/40_frame_codec.md R80 to R91): one
specification per function, for callers to cite.
-/

namespace Sys2Proof.Machine

/-! The encoder (R80, R81, R82). -/

@[simp] theorem length_byteBits (b : Byte) : (byteBits b).length = 8 := rfl

/-- Bit `t` of a character's group is its bit `7 - t` (R80). -/
theorem byteBits_getElem? (b : Byte) (t : Nat) (h : t < 8) :
    (byteBits b)[t]? = some (b.extractLsb' (7 - t) 1) := by
  match t, h with
  | 0, _ | 1, _ | 2, _ | 3, _ | 4, _ | 5, _ | 6, _ | 7, _ => rfl

@[simp] theorem length_encodeFrame (msg : List Byte) : (encodeFrame msg).length = 8 * msg.length + 16 := by
  induction msg with
  | nil => rfl
  | cons b msg ih => simp [encodeFrame, ih]; omega

/-- Payload bit `8*j + t` (R81). -/
theorem encodeFrame_payload (msg : List Byte) (j t : Nat) (b : Byte) (hj : msg[j]? = some b)
    (ht : t < 8) : (encodeFrame msg)[8 * j + t]? = some (b.extractLsb' (7 - t) 1) := by
  induction msg generalizing j with
  | nil => simp at hj
  | cons c msg ih =>
    cases j with
    | zero =>
      obtain rfl : c = b := by simpa using hj
      rw [encodeFrame, List.getElem?_append_left (by simp; omega), Nat.mul_zero, Nat.zero_add]
      exact byteBits_getElem? c t ht
    | succ j =>
      rw [encodeFrame, List.getElem?_append_right (by simp; omega), length_byteBits,
        show 8 * (j + 1) + t - 8 = 8 * j + t by omega]
      exact ih j (by simpa using hj)

/-- Terminator bits (R81). -/
theorem encodeFrame_terminator (msg : List Byte) (t : Nat) (ht : t < 16) :
    (encodeFrame msg)[8 * msg.length + t]? = some 0#1 := by
  induction msg with
  | nil => rw [encodeFrame, List.length_nil, Nat.mul_zero, Nat.zero_add, List.getElem?_replicate, if_pos ht]
  | cons c msg ih =>
    rw [encodeFrame, List.length_cons, List.getElem?_append_right (by simp; omega), length_byteBits,
      show 8 * (msg.length + 1) + t - 8 = 8 * msg.length + t by omega]
    exact ih

/-! The terminator test (R88). -/

theorem termAt_iff {a : List Bit} {n : Nat} (hn : n ≤ a.length) :
    termAt a n = true ↔ 16 ≤ n ∧ ∀ k, n - 16 ≤ k → k < n → a[k]? = some 0#1 := by
  simp only [termAt, Bool.and_eq_true, decide_eq_true_eq, List.all_eq_true, beq_iff_eq]
  refine and_congr_right fun h16 => ⟨fun h k h1 h2 => ?_, fun h b hb => ?_⟩
  · have hk : k < a.length := by omega
    rw [List.getElem?_eq_getElem hk, Option.some_inj]
    apply h
    rw [List.mem_iff_getElem?]
    refine ⟨k - (n - 16), ?_⟩
    rw [List.getElem?_drop, show n - 16 + (k - (n - 16)) = k by omega, List.getElem?_take_of_lt h2,
      List.getElem?_eq_getElem hk]
  · obtain ⟨i, hi⟩ := List.mem_iff_getElem?.mp hb
    rw [List.getElem?_drop] at hi
    have hlt : n - 16 + i < n := by
      by_contra hc
      rw [List.getElem?_take_eq_none (by omega)] at hi
      cases hi
    rw [List.getElem?_take_of_lt hlt, h _ (by omega) hlt] at hi
    exact (Option.some.inj hi).symm

/-- The test reads only the first `n` bits. -/
theorem termAt_append (a b : List Bit) {n : Nat} (hn : n ≤ a.length) :
    termAt (a ++ b) n = termAt a n := by
  simp only [termAt, List.take_append_of_le_length hn]

theorem termAt_of_lt (a : List Bit) {n : Nat} (hn : n < 16) : termAt a n = false := by
  simp only [termAt, Bool.and_eq_false_imp, decide_eq_true_eq]
  omega

/-! The decoder (R90, R94). -/

/-- What a decoder that has consumed `a` has found out so far: no proper prefix ends in a terminator. -/
theorem Decoder.step_scanning (maxBits : Nat) (a : List Bit) (b : Bit) :
    (Decoder.mk .scanning a).step maxBits b =
      if termAt (a ++ [b]) (a ++ [b]).length then ⟨.found, a ++ [b]⟩
      else if (a ++ [b]).length = maxBits then ⟨.exhausted, a ++ [b]⟩
      else ⟨.scanning, a ++ [b]⟩ := rfl

/-- What the end of a scan says about the bits: it consumed a prefix of the source in order, no proper
prefix of it ends in a terminator, and either it does itself (`found`) or the bound is reached. -/
structure ScanEnd (bits : Nat → Except Fault Bit) (maxBits : Nat) (d : Decoder) : Prop where
  le : d.acc.length ≤ maxBits
  consumed : ∀ k b, d.acc[k]? = some b → bits k = .ok b
  first : ∀ n, n < d.acc.length → termAt d.acc n = false
  outcome : d.state = .found ∧ termAt d.acc d.acc.length = true ∨
    d.state = .exhausted ∧ d.acc.length = maxBits ∧ termAt d.acc d.acc.length = false

/-- What a scan that reads an unreadable bit says: the bits before it were consumed without a terminator. -/
structure ScanStop (bits : Nat → Except Fault Bit) (maxBits : Nat) (r : Fault) (a : List Bit) : Prop where
  lt : a.length < maxBits
  consumed : ∀ k b, a[k]? = some b → bits k = .ok b
  first : ∀ n, n ≤ a.length → termAt a n = false
  unread : bits a.length = .error r

theorem Decoder.scan_spec {bits : Nat → Except Fault Bit} {maxBits : Nat} :
    ∀ (fuel : Nat) (a : List Bit), 0 < fuel → fuel + a.length = maxBits →
      (∀ k b, a[k]? = some b → bits k = .ok b) → (∀ n, n ≤ a.length → termAt a n = false) →
      (∀ d, Decoder.scan bits maxBits fuel ⟨.scanning, a⟩ = .ok d → ScanEnd bits maxBits d) ∧
      (∀ r, Decoder.scan bits maxBits fuel ⟨.scanning, a⟩ = .error r → ∃ e, ScanStop bits maxBits r e)
  | 0, _, h, _, _, _ => absurd h (by omega)
  | fuel + 1, a, _, hlen, hcons, hfirst => by
    cases hb : bits a.length with
    | error r =>
      simp only [Decoder.scan, hb]
      exact ⟨nofun, fun r' h => ⟨a, by omega, hcons, hfirst, by rw [hb, Except.error.inj h]⟩⟩
    | ok b =>
      have hcons' : ∀ k c, (a ++ [b])[k]? = some c → bits k = .ok c := by
        intro k c hk
        by_cases hlt : k < a.length
        · exact hcons k c (by rwa [List.getElem?_append_left hlt] at hk)
        · rw [List.getElem?_append_right (by omega)] at hk
          have : k = a.length := by
            rcases Nat.lt_or_ge (k - a.length) 1 with h | h
            · omega
            · rw [List.getElem?_eq_none (by simpa using h)] at hk; cases hk
          subst this
          simp only [Nat.sub_self, List.getElem?_cons_zero, Option.some_inj] at hk
          rw [hb, hk]
      have hfirst' : ∀ n, n < (a ++ [b]).length → termAt (a ++ [b]) n = false := by
        intro n hn
        have hn : n ≤ a.length := by simpa [Nat.lt_succ_iff] using hn
        rw [termAt_append a [b] hn, hfirst n hn]
      have hl : (a ++ [b]).length = a.length + 1 := by simp
      simp only [Decoder.scan, hb, Decoder.step_scanning]
      by_cases ht : termAt (a ++ [b]) (a ++ [b]).length = true
      · rw [if_pos ht]
        have : Decoder.scan bits maxBits fuel ⟨.found, a ++ [b]⟩ = .ok ⟨.found, a ++ [b]⟩ := by
          cases fuel <;> rfl
        rw [this]
        refine ⟨fun d h => ?_, fun r h => by cases h⟩
        cases h
        exact ⟨by show (a ++ [b]).length ≤ maxBits; omega, hcons', hfirst', .inl ⟨rfl, ht⟩⟩
      · rw [if_neg ht]
        have ht : termAt (a ++ [b]) (a ++ [b]).length = false := by simpa using ht
        by_cases hm : (a ++ [b]).length = maxBits
        · rw [if_pos hm]
          have : Decoder.scan bits maxBits fuel ⟨.exhausted, a ++ [b]⟩ = .ok ⟨.exhausted, a ++ [b]⟩ := by
            cases fuel <;> rfl
          rw [this]
          refine ⟨fun d h => ?_, fun r h => by cases h⟩
          cases h
          exact ⟨le_of_eq hm, hcons', hfirst', .inr ⟨rfl, hm, ht⟩⟩
        · rw [if_neg hm]
          refine Decoder.scan_spec fuel (a ++ [b]) (by omega) (by omega) hcons' fun n hn => ?_
          rcases Nat.lt_or_eq_of_le hn with h | h
          · exact hfirst' n h
          · rw [h]; exact ht

/-- Everything that `decode_frame` can answer: an end of scan, or the fault of the first source bit that
cannot be read (R90). -/
theorem decodeFrame_spec (bits : Nat → Except Fault Bit) (maxBits : Nat) :
    (∀ d, decodeFrame bits maxBits = .ok d → ScanEnd bits maxBits d) ∧
    (∀ r, decodeFrame bits maxBits = .error r → ∃ a, ScanStop bits maxBits r a) := by
  unfold decodeFrame Decoder.initial
  by_cases h0 : maxBits = 0
  · subst h0
    refine ⟨fun d h => ?_, fun r h => by cases h⟩
    cases h
    exact ⟨le_rfl, fun k b h => by simp at h, fun n h => by simp at h, .inr ⟨rfl, rfl, rfl⟩⟩
  · rw [if_neg h0]
    refine Decoder.scan_spec maxBits [] (by omega) (by simp) (fun k b h => by simp at h) fun n hn => ?_
    exact termAt_of_lt _ (by simp at hn; omega)

/-- Two sequences of bits consumed from one source agree as far as both go. -/
theorem consumed_prefix {bits : Nat → Except Fault Bit} {a b : List Bit}
    (ha : ∀ k x, a[k]? = some x → bits k = .ok x) (hb : ∀ k x, b[k]? = some x → bits k = .ok x)
    (hle : a.length ≤ b.length) : b.take a.length = a := by
  refine List.ext_getElem? fun k => ?_
  by_cases hk : k < a.length
  · have h1 := List.getElem?_eq_getElem hk
    have h2 := List.getElem?_eq_getElem (show k < b.length by omega)
    have e := ha k _ h1
    rw [hb k _ h2] at e
    rw [List.getElem?_take_of_lt hk, h1, h2, Except.ok.inj e]
  · rw [List.getElem?_eq_none (by omega : a.length ≤ k), List.getElem?_take_eq_none (by omega)]

theorem termAt_of_prefix {a b : List Bit} (h : b.take a.length = a) :
    termAt b a.length = termAt a a.length := by
  conv_lhs => rw [← List.take_append_drop a.length b, h, termAt_append _ _ le_rfl]

/-- A described end of scan is what `decode_frame` answers: the answer is determined by where the first
terminator of the source ends. -/
theorem decodeFrame_eq_ok {bits : Nat → Except Fault Bit} {maxBits : Nat} {d : Decoder}
    (h : ScanEnd bits maxBits d) : decodeFrame bits maxBits = .ok d := by
  cases hr : decodeFrame bits maxBits with
  | error r =>
    exfalso
    obtain ⟨a, ha⟩ := (decodeFrame_spec bits maxBits).2 r hr
    by_cases hlt : a.length < d.acc.length
    · have := h.consumed _ _ (List.getElem?_eq_getElem hlt)
      rw [ha.unread] at this
      cases this
    · have hle : d.acc.length ≤ a.length := by omega
      have ht := termAt_of_prefix (consumed_prefix h.consumed ha.consumed hle)
      rw [ha.first _ hle] at ht
      rcases h.outcome with ⟨-, h'⟩ | ⟨-, hm, -⟩
      · rw [h'] at ht; cases ht
      · have := ha.lt; omega
  | ok e =>
    have he := (decodeFrame_spec bits maxBits).1 e hr
    have hlen : ∀ {x y : Decoder}, ScanEnd bits maxBits x → ScanEnd bits maxBits y →
        ¬ x.acc.length < y.acc.length := by
      intro x y hx hy hlt
      have ht := termAt_of_prefix (consumed_prefix hx.consumed hy.consumed (le_of_lt hlt))
      rw [hy.first _ hlt] at ht
      rcases hx.outcome with ⟨-, h'⟩ | ⟨-, hm, -⟩
      · rw [h'] at ht; cases ht
      · have := hy.le; omega
    have heq : d.acc.length = e.acc.length := by
      have := hlen h he; have := hlen he h; omega
    have hacc : e.acc = d.acc := by
      rw [← consumed_prefix h.consumed he.consumed (le_of_eq heq), heq, List.take_length]
    obtain ⟨ds, da⟩ := d
    obtain ⟨es, ea⟩ := e
    simp only at hacc
    subst hacc
    rcases h.outcome with ⟨h1, h2⟩ | ⟨h1, -, h2⟩ <;>
      rcases he.outcome with ⟨h3, h4⟩ | ⟨h3, -, h4⟩ <;> simp_all

/-! Groups of bits as numbers (R91). -/

theorem bit_cases (b : Bit) : b = 0#1 ∨ b = 1#1 := by
  revert b
  decide

theorem bitsValue_append (bs : List Bit) (b : Bit) :
    bitsValue (bs ++ [b]) = 2 * bitsValue bs + b.toNat := by
  simp [bitsValue, List.foldl_append]

theorem bitsValue_lt (bs : List Bit) : bitsValue bs < 2 ^ bs.length := by
  induction bs using List.reverseRecOn with
  | nil => simp [bitsValue]
  | append_singleton bs b ih =>
    rw [bitsValue_append, List.length_append, List.length_singleton, pow_succ]
    have := b.isLt
    omega

/-- The first bit of a group is its most significant: bit `k` of the number is bit `length - 1 - k` of
the group. -/
theorem bitsValue_testBit (bs : List Bit) (k : Nat) (hk : k < bs.length) :
    (bitsValue bs).testBit k = decide (bs[bs.length - 1 - k]? = some 1#1) := by
  induction bs using List.reverseRecOn generalizing k with
  | nil => simp at hk
  | append_singleton bs b ih =>
    have hl : (bs ++ [b]).length = bs.length + 1 := by simp
    rw [hl] at hk
    rw [bitsValue_append, hl]
    rcases bit_cases b with rfl | rfl
    all_goals
      cases k with
      | zero => simp [Nat.testBit_zero, Nat.add_mod]
      | succ k =>
        rw [Nat.testBit_succ, show bs.length + 1 - 1 - (k + 1) = bs.length - 1 - k by omega,
          List.getElem?_append_left (by omega), ← ih k (by omega)]
        congr 1
        simp
        try omega

/-- The message recovered under the decided policy has one byte for every begun group of 8 (R91). -/
theorem length_messageOf_padZeroRight (a : List Bit) (n : Nat) :
    (messageOf .padZeroRight a n).length = (n - 16 + 7) / 8 := by
  unfold messageOf
  dsimp only
  split
  · simp; omega
  · simp; omega

/-- Whatever the policy, the message is shorter than the bits consumed. -/
theorem length_messageOf_le (p : TailPolicy) (a : List Bit) (n : Nat) :
    (messageOf p a n).length ≤ (n - 16 + 7) / 8 := by
  unfold messageOf
  dsimp only
  split
  · simp; omega
  · cases p <;> simp <;> omega

theorem getElem?_group (a : List Bit) (start r t : Nat) (ht : t < r) :
    ((a.drop start).take r)[t]? = a[start + t]? := by
  rw [List.getElem?_take_of_lt ht, List.getElem?_drop]

/-- Byte `j` of the message recovered under the decided policy: its bits, most significant first, are the
stream's bits `8*j` to `8*j + 7`, those from `n - 16` on read as 0 (R91). -/
theorem messageOf_padZeroRight_getElem? (a : List Bit) (n : Nat) (hn : n ≤ a.length) (j : Nat)
    (hj : j < (n - 16 + 7) / 8) :
    ∃ b, (messageOf .padZeroRight a n)[j]? = some b ∧
      ∀ k, k < 8 → b.getLsbD (7 - k) = decide (8 * j + k < n - 16 ∧ a[8 * j + k]? = some 1#1) := by
  unfold messageOf
  dsimp only
  have hwhole : j < (n - 16) / 8 → ((List.range ((n - 16) / 8)).map fun j =>
      BitVec.ofNat 8 (groupValue a (8 * j) 8))[j]? = some (BitVec.ofNat 8 (groupValue a (8 * j) 8)) := by
    intro h
    rw [List.getElem?_map, List.getElem?_range h]; rfl
  by_cases hq : j < (n - 16) / 8
  · refine ⟨BitVec.ofNat 8 (groupValue a (8 * j) 8), ?_, fun k hk => ?_⟩
    · split
      · exact hwhole hq
      · rw [List.getElem?_append_left (by simpa using hq)]; exact hwhole hq
    · have hlen : ((a.drop (8 * j)).take 8).length = 8 := by simp; omega
      rw [BitVec.getLsbD_ofNat, groupValue, bitsValue_testBit _ _ (by omega), hlen,
        show 8 - 1 - (7 - k) = k by omega, getElem?_group _ _ _ _ hk]
      have : 8 * j + k < n - 16 := by omega
      simp [this]
      omega
  · have hr : ¬ (n - 16) % 8 = 0 := by omega
    have hjq : j = (n - 16) / 8 := by omega
    rw [if_neg hr]
    refine ⟨BitVec.ofNat 8 (groupValue a (8 * j) ((n - 16) % 8) * 2 ^ (8 - (n - 16) % 8)), ?_,
      fun k hk => ?_⟩
    · rw [List.getElem?_append_right (by simp; omega), hjq]; simp
    · have hlen : ((a.drop (8 * j)).take ((n - 16) % 8)).length = (n - 16) % 8 := by simp; omega
      rw [BitVec.getLsbD_ofNat, Nat.testBit_mul_two_pow]
      by_cases hin : k < (n - 16) % 8
      · rw [groupValue, bitsValue_testBit _ _ (by omega), hlen,
          show (n - 16) % 8 - 1 - (7 - k - (8 - (n - 16) % 8)) = k by omega, getElem?_group _ _ _ _ hin]
        have h1 : 8 * j + k < n - 16 := by omega
        have h2 : 8 - (n - 16) % 8 ≤ 7 - k := by omega
        simp [h1, h2]
        omega
      · have h1 : ¬ 8 * j + k < n - 16 := by omega
        have h2 : ¬ 8 - (n - 16) % 8 ≤ 7 - k := by omega
        simp [h1, h2]

end Sys2Proof.Machine
end

