-- ==== Sys2Proof/Laws/Memory.lean ====
section
/-!
SUPPORT. What the operations over cells do: a read after a write, and the canonical form that every
operation keeps (spec/20_memory.md R44, R47, R49).
-/

namespace Sys2Proof.Machine

variable {w : Nat}

@[simp] theorem Memory.read_nil (i : Nat) : Memory.read ([] : Memory w) i = none := rfl

theorem Memory.read_cons (a i : Nat) (v : BitVec w) (rest : Memory w) :
    Memory.read ((a, v) :: rest) i = if a = i then some v else Memory.read rest i := rfl

/-- One primitive moves exactly one cell: the cell written reads as the value written, every other cell
as before (R44, R47). -/
theorem Memory.read_write (mem : Memory w) (i j : Nat) (v : BitVec w) :
    (mem.write i v).read j = if j = i then some v else mem.read j := by
  induction mem with
  | nil => simp only [Memory.write, Memory.read, eq_comm]
  | cons c rest ih =>
    obtain ⟨a, x⟩ := c
    simp only [Memory.write]
    split
    · simp only [Memory.read_cons, eq_comm (a := i)]
    · split
      · subst a
        simp only [Memory.read_cons]
        grind
      · simp only [Memory.read_cons, ih]
        grind

@[simp] theorem Memory.read_write_self (mem : Memory w) (i : Nat) (v : BitVec w) :
    (mem.write i v).read i = some v := by simp [Memory.read_write]

theorem Memory.read_write_of_ne (mem : Memory w) {i j : Nat} (v : BitVec w) (h : j ≠ i) :
    (mem.write i v).read j = mem.read j := by simp [Memory.read_write, h]

/-- Ascending writes from cell `i` on: cell `i + k` reads as the `k`-th value, every other cell as
before. -/
theorem Memory.read_writeFrom (vs : List (BitVec w)) (mem : Memory w) (i j : Nat) :
    (mem.writeFrom i vs).read j =
      if i ≤ j ∧ j < i + vs.length then vs[j - i]? else mem.read j := by
  induction vs generalizing mem i with
  | nil =>
    have : ¬ (i ≤ j ∧ j < i + ([] : List (BitVec w)).length) := by simp
    rw [if_neg this]; rfl
  | cons v vs ih =>
    rw [Memory.writeFrom, ih, Memory.read_write, List.length_cons]
    by_cases hj : j = i
    · subst hj
      rw [if_neg (by omega), if_pos rfl, if_pos (by omega)]
      simp
    · rw [if_neg hj]
      by_cases h : i + 1 ≤ j ∧ j < i + 1 + vs.length
      · rw [if_pos h, if_pos (by omega), show j - i = (j - (i + 1)) + 1 by omega,
          List.getElem?_cons_succ]
      · rw [if_neg h, if_neg (by omega)]

/-- The indices of a written space are the old ones and the index written. -/
theorem Memory.mem_write {mem : Memory w} {i : Nat} {v : BitVec w} {c : Nat × BitVec w}
    (h : c ∈ mem.write i v) : c = (i, v) ∨ c ∈ mem := by
  induction mem with
  | nil => simpa [Memory.write] using h
  | cons d rest ih =>
    obtain ⟨a, x⟩ := d
    simp only [Memory.write] at h
    split at h
    · simpa using h
    · split at h
      · rcases List.mem_cons.mp h with h | h
        · exact .inl h
        · exact .inr (List.mem_cons_of_mem _ h)
      · rcases List.mem_cons.mp h with h | h
        · exact .inr (h ▸ List.mem_cons_self)
        · exact (ih h).imp_right (List.mem_cons_of_mem _)

/-- A write keeps the canonical form. -/
theorem Memory.write_wf {mem : Memory w} (h : mem.wf) {i : Nat} (hi : i < Config.cellCount)
    (v : BitVec w) : (mem.write i v).wf := by
  refine ⟨?_, fun c hc => ?_⟩
  · obtain ⟨h, -⟩ := h
    induction mem with
    | nil => simp [Memory.write]
    | cons d rest ih =>
      obtain ⟨a, x⟩ := d
      simp only [List.map_cons, List.pairwise_cons] at h
      simp only [Memory.write]
      split
      · rename_i hlt
        simp only [List.map_cons, List.pairwise_cons, List.mem_cons]
        refine ⟨fun b hb => ?_, h.1, h.2⟩
        rcases hb with rfl | hb
        · exact hlt
        · exact lt_trans hlt (h.1 b hb)
      · split
        · rename_i heq
          subst heq
          simpa using h
        · rename_i h1 h2
          simp only [List.map_cons, List.pairwise_cons]
          refine ⟨fun b hb => ?_, ih h.2⟩
          obtain ⟨c, hc, rfl⟩ := List.mem_map.mp hb
          rcases Memory.mem_write hc with rfl | hc
          · show a < i
            omega
          · exact h.1 _ (List.mem_map_of_mem hc)
  · rcases Memory.mem_write hc with rfl | hc
    · exact hi
    · exact h.2 c hc

/-- Ascending writes within the index range keep the canonical form. -/
theorem Memory.writeFrom_wf (vs : List (BitVec w)) {mem : Memory w} (h : mem.wf) (i : Nat)
    (hi : i + vs.length ≤ Config.cellCount) : (mem.writeFrom i vs).wf := by
  induction vs generalizing mem i with
  | nil => exact h
  | cons v vs ih =>
    rw [List.length_cons] at hi
    exact ih (Memory.write_wf h (by omega) v) (i + 1) (by omega)

/-- The empty space, as reset leaves it to a model (R29), is canonical. -/
theorem Memory.wf_nil : Memory.wf ([] : Memory w) := by simp [Memory.wf]

/-- A command's read of a cell succeeds exactly on a written cell, with its value. -/
theorem Memory.fetch_eq_ok {mem : Memory w} {sp : Space} {i : Nat} {v : BitVec w} :
    mem.fetch sp i = .ok v ↔ mem.read i = some v := by
  unfold Memory.fetch
  cases mem.read i <;> simp

/-- A command's read of a cell fails exactly on a cell that nothing has written (U1). -/
theorem Memory.fetch_eq_error {mem : Memory w} {sp : Space} {i : Nat} {r : Fault} :
    mem.fetch sp i = .error r ↔ mem.read i = none ∧ r = .unwrittenCell sp i := by
  unfold Memory.fetch
  cases mem.read i <;> simp [eq_comm]

end Sys2Proof.Machine
end

