-- ==== Sys2Proof/Laws/State.lean ====
section
/-!
SUPPORT. One lemma per field of `State` and named update: what each of the shared register operations
leaves in that field.
-/

namespace Sys2Proof.Machine

/-! Acceptance (R66). -/

@[simp] theorem State.accept_status (s : State) :
    (s.accept).status = ⟨true, false, .ok, .scanning⟩ := rfl
@[simp] theorem State.accept_samp (s : State) :
    (s.accept).samp = s.samp := rfl
@[simp] theorem State.accept_bitv (s : State) :
    (s.accept).bitv = s.bitv := rfl
@[simp] theorem State.accept_chans (s : State) :
    (s.accept).chans = s.chans := rfl
@[simp] theorem State.accept_slen (s : State) :
    (s.accept).slen = s.slen := rfl
@[simp] theorem State.accept_mlen (s : State) :
    (s.accept).mlen = s.mlen := rfl
@[simp] theorem State.accept_flen (s : State) :
    (s.accept).flen = s.flen := rfl
@[simp] theorem State.accept_idx (s : State) :
    (s.accept).idx = 0#32 := rfl
@[simp] theorem State.accept_acc (s : State) :
    (s.accept).acc = [] := rfl
@[simp] theorem State.accept_sMem (s : State) :
    (s.accept).sMem = s.sMem := rfl
@[simp] theorem State.accept_mMem (s : State) :
    (s.accept).mMem = s.mMem := rfl
@[simp] theorem State.accept_fMem (s : State) :
    (s.accept).fMem = s.fMem := rfl
@[simp] theorem State.accept_script (s : State) :
    (s.accept).script = s.script := rfl
@[simp] theorem State.accept_reads (s : State) :
    (s.accept).reads = s.reads := rfl
@[simp] theorem State.accept_draws (s : State) :
    (s.accept).draws = s.draws := rfl

/-! Completion (R66). -/

@[simp] theorem State.complete_status (s : State) (e : ErrCode) :
    (s.complete e).status = ⟨false, true, e, s.status.dstate⟩ := rfl
@[simp] theorem State.complete_samp (s : State) (e : ErrCode) :
    (s.complete e).samp = s.samp := rfl
@[simp] theorem State.complete_bitv (s : State) (e : ErrCode) :
    (s.complete e).bitv = s.bitv := rfl
@[simp] theorem State.complete_chans (s : State) (e : ErrCode) :
    (s.complete e).chans = s.chans := rfl
@[simp] theorem State.complete_slen (s : State) (e : ErrCode) :
    (s.complete e).slen = s.slen := rfl
@[simp] theorem State.complete_mlen (s : State) (e : ErrCode) :
    (s.complete e).mlen = s.mlen := rfl
@[simp] theorem State.complete_flen (s : State) (e : ErrCode) :
    (s.complete e).flen = s.flen := rfl
@[simp] theorem State.complete_idx (s : State) (e : ErrCode) :
    (s.complete e).idx = s.idx := rfl
@[simp] theorem State.complete_acc (s : State) (e : ErrCode) :
    (s.complete e).acc = [] := rfl
@[simp] theorem State.complete_sMem (s : State) (e : ErrCode) :
    (s.complete e).sMem = s.sMem := rfl
@[simp] theorem State.complete_mMem (s : State) (e : ErrCode) :
    (s.complete e).mMem = s.mMem := rfl
@[simp] theorem State.complete_fMem (s : State) (e : ErrCode) :
    (s.complete e).fMem = s.fMem := rfl
@[simp] theorem State.complete_script (s : State) (e : ErrCode) :
    (s.complete e).script = s.script := rfl
@[simp] theorem State.complete_reads (s : State) (e : ErrCode) :
    (s.complete e).reads = s.reads := rfl
@[simp] theorem State.complete_draws (s : State) (e : ErrCode) :
    (s.complete e).draws = s.draws := rfl

/-! Failure (R144). -/

@[simp] theorem State.fail_status (s : State) (e : ErrCode) :
    (s.fail e).status = ⟨false, true, e, s.status.dstate⟩ := rfl
@[simp] theorem State.fail_samp (s : State) (e : ErrCode) :
    (s.fail e).samp = s.samp := rfl
@[simp] theorem State.fail_bitv (s : State) (e : ErrCode) :
    (s.fail e).bitv = s.bitv := rfl
@[simp] theorem State.fail_chans (s : State) (e : ErrCode) :
    (s.fail e).chans = s.chans := rfl
@[simp] theorem State.fail_slen (s : State) (e : ErrCode) :
    (s.fail e).slen = s.slen := rfl
@[simp] theorem State.fail_mlen (s : State) (e : ErrCode) :
    (s.fail e).mlen = s.mlen := rfl
@[simp] theorem State.fail_flen (s : State) (e : ErrCode) :
    (s.fail e).flen = s.flen := rfl
@[simp] theorem State.fail_idx (s : State) (e : ErrCode) :
    (s.fail e).idx = s.idx := rfl
@[simp] theorem State.fail_acc (s : State) (e : ErrCode) :
    (s.fail e).acc = [] := rfl
@[simp] theorem State.fail_sMem (s : State) (e : ErrCode) :
    (s.fail e).sMem = s.sMem := rfl
@[simp] theorem State.fail_mMem (s : State) (e : ErrCode) :
    (s.fail e).mMem = s.mMem := rfl
@[simp] theorem State.fail_fMem (s : State) (e : ErrCode) :
    (s.fail e).fMem = s.fMem := rfl
@[simp] theorem State.fail_script (s : State) (e : ErrCode) :
    (s.fail e).script = s.script := rfl
@[simp] theorem State.fail_reads (s : State) (e : ErrCode) :
    (s.fail e).reads = s.reads := rfl
@[simp] theorem State.fail_draws (s : State) (e : ErrCode) :
    (s.fail e).draws = s.draws := rfl

/-! An illegal word (R143). -/

@[simp] theorem State.illegalCommand_status (s : State) :
    (s.illegalCommand).status = ⟨false, true, .illegalCommand, .scanning⟩ := rfl
@[simp] theorem State.illegalCommand_samp (s : State) :
    (s.illegalCommand).samp = s.samp := rfl
@[simp] theorem State.illegalCommand_bitv (s : State) :
    (s.illegalCommand).bitv = s.bitv := rfl
@[simp] theorem State.illegalCommand_chans (s : State) :
    (s.illegalCommand).chans = s.chans := rfl
@[simp] theorem State.illegalCommand_slen (s : State) :
    (s.illegalCommand).slen = s.slen := rfl
@[simp] theorem State.illegalCommand_mlen (s : State) :
    (s.illegalCommand).mlen = s.mlen := rfl
@[simp] theorem State.illegalCommand_flen (s : State) :
    (s.illegalCommand).flen = s.flen := rfl
@[simp] theorem State.illegalCommand_idx (s : State) :
    (s.illegalCommand).idx = 0#32 := rfl
@[simp] theorem State.illegalCommand_acc (s : State) :
    (s.illegalCommand).acc = [] := rfl
@[simp] theorem State.illegalCommand_sMem (s : State) :
    (s.illegalCommand).sMem = s.sMem := rfl
@[simp] theorem State.illegalCommand_mMem (s : State) :
    (s.illegalCommand).mMem = s.mMem := rfl
@[simp] theorem State.illegalCommand_fMem (s : State) :
    (s.illegalCommand).fMem = s.fMem := rfl
@[simp] theorem State.illegalCommand_script (s : State) :
    (s.illegalCommand).script = s.script := rfl
@[simp] theorem State.illegalCommand_reads (s : State) :
    (s.illegalCommand).reads = s.reads := rfl
@[simp] theorem State.illegalCommand_draws (s : State) :
    (s.illegalCommand).draws = s.draws := rfl

/-! Reset of the registers (R160). -/

@[simp] theorem State.resetRegisters_status (s : State) :
    (s.resetRegisters).status = State.reset.status := rfl
@[simp] theorem State.resetRegisters_samp (s : State) :
    (s.resetRegisters).samp = State.reset.samp := rfl
@[simp] theorem State.resetRegisters_bitv (s : State) :
    (s.resetRegisters).bitv = State.reset.bitv := rfl
@[simp] theorem State.resetRegisters_chans (s : State) :
    (s.resetRegisters).chans = State.reset.chans := rfl
@[simp] theorem State.resetRegisters_slen (s : State) :
    (s.resetRegisters).slen = State.reset.slen := rfl
@[simp] theorem State.resetRegisters_mlen (s : State) :
    (s.resetRegisters).mlen = State.reset.mlen := rfl
@[simp] theorem State.resetRegisters_flen (s : State) :
    (s.resetRegisters).flen = State.reset.flen := rfl
@[simp] theorem State.resetRegisters_idx (s : State) :
    (s.resetRegisters).idx = State.reset.idx := rfl
@[simp] theorem State.resetRegisters_acc (s : State) :
    (s.resetRegisters).acc = State.reset.acc := rfl
@[simp] theorem State.resetRegisters_sMem (s : State) :
    (s.resetRegisters).sMem = s.sMem := rfl
@[simp] theorem State.resetRegisters_mMem (s : State) :
    (s.resetRegisters).mMem = s.mMem := rfl
@[simp] theorem State.resetRegisters_fMem (s : State) :
    (s.resetRegisters).fMem = s.fMem := rfl
@[simp] theorem State.resetRegisters_script (s : State) :
    (s.resetRegisters).script = s.script := rfl
@[simp] theorem State.resetRegisters_reads (s : State) :
    (s.resetRegisters).reads = s.reads := rfl
@[simp] theorem State.resetRegisters_draws (s : State) :
    (s.resetRegisters).draws = s.draws := rfl

/-! The host receives what it read. -/

@[simp] theorem State.logRead_status (s : State) (d : ReadData) :
    (s.logRead d).status = s.status := rfl
@[simp] theorem State.logRead_samp (s : State) (d : ReadData) :
    (s.logRead d).samp = s.samp := rfl
@[simp] theorem State.logRead_bitv (s : State) (d : ReadData) :
    (s.logRead d).bitv = s.bitv := rfl
@[simp] theorem State.logRead_chans (s : State) (d : ReadData) :
    (s.logRead d).chans = s.chans := rfl
@[simp] theorem State.logRead_slen (s : State) (d : ReadData) :
    (s.logRead d).slen = s.slen := rfl
@[simp] theorem State.logRead_mlen (s : State) (d : ReadData) :
    (s.logRead d).mlen = s.mlen := rfl
@[simp] theorem State.logRead_flen (s : State) (d : ReadData) :
    (s.logRead d).flen = s.flen := rfl
@[simp] theorem State.logRead_idx (s : State) (d : ReadData) :
    (s.logRead d).idx = s.idx := rfl
@[simp] theorem State.logRead_acc (s : State) (d : ReadData) :
    (s.logRead d).acc = s.acc := rfl
@[simp] theorem State.logRead_sMem (s : State) (d : ReadData) :
    (s.logRead d).sMem = s.sMem := rfl
@[simp] theorem State.logRead_mMem (s : State) (d : ReadData) :
    (s.logRead d).mMem = s.mMem := rfl
@[simp] theorem State.logRead_fMem (s : State) (d : ReadData) :
    (s.logRead d).fMem = s.fMem := rfl
@[simp] theorem State.logRead_script (s : State) (d : ReadData) :
    (s.logRead d).script = s.script := rfl
@[simp] theorem State.logRead_reads (s : State) (d : ReadData) :
    (s.logRead d).reads = d :: s.reads := rfl
@[simp] theorem State.logRead_draws (s : State) (d : ReadData) :
    (s.logRead d).draws = s.draws := rfl

/-! The opcode table's word as the next action. -/

@[simp] theorem State.withCommand_status (s : State) (w : Word) :
    (s.withCommand w).status = ⟨false, s.status.done, s.status.err, s.status.dstate⟩ := rfl
@[simp] theorem State.withCommand_samp (s : State) (w : Word) :
    (s.withCommand w).samp = s.samp := rfl
@[simp] theorem State.withCommand_bitv (s : State) (w : Word) :
    (s.withCommand w).bitv = s.bitv := rfl
@[simp] theorem State.withCommand_chans (s : State) (w : Word) :
    (s.withCommand w).chans = s.chans := rfl
@[simp] theorem State.withCommand_slen (s : State) (w : Word) :
    (s.withCommand w).slen = s.slen := rfl
@[simp] theorem State.withCommand_mlen (s : State) (w : Word) :
    (s.withCommand w).mlen = s.mlen := rfl
@[simp] theorem State.withCommand_flen (s : State) (w : Word) :
    (s.withCommand w).flen = s.flen := rfl
@[simp] theorem State.withCommand_idx (s : State) (w : Word) :
    (s.withCommand w).idx = s.idx := rfl
@[simp] theorem State.withCommand_acc (s : State) (w : Word) :
    (s.withCommand w).acc = s.acc := rfl
@[simp] theorem State.withCommand_sMem (s : State) (w : Word) :
    (s.withCommand w).sMem = s.sMem := rfl
@[simp] theorem State.withCommand_mMem (s : State) (w : Word) :
    (s.withCommand w).mMem = s.mMem := rfl
@[simp] theorem State.withCommand_fMem (s : State) (w : Word) :
    (s.withCommand w).fMem = s.fMem := rfl
@[simp] theorem State.withCommand_script (s : State) (w : Word) :
    (s.withCommand w).script = .wr 0 w :: s.script := rfl
@[simp] theorem State.withCommand_reads (s : State) (w : Word) :
    (s.withCommand w).reads = s.reads := rfl
@[simp] theorem State.withCommand_draws (s : State) (w : Word) :
    (s.withCommand w).draws = s.draws := rfl

end Sys2Proof.Machine
end

