-- ==== Sys2Proof/Laws/Operands.lean ====
section
/-!
SUPPORT. What the operand operations do: reading the message, the loop of `EMBED`, the bit sources of
`DECF` and `EXTRACT`, and that accepting a command changes none of them.
-/

namespace Sys2Proof.Machine

/-! Acceptance leaves every operand as it is. -/

@[simp] theorem State.accept_required (s : State) : s.accept.required = s.required := rfl
@[simp] theorem State.accept_malformed (s : State) : s.accept.malformed = s.malformed := rfl
@[simp] theorem State.accept_available (s : State) : s.accept.available = s.available := rfl
@[simp] theorem State.accept_frameBit (s : State) : s.accept.frameBit = s.frameBit := rfl
@[simp] theorem State.accept_channelBit (s : State) : s.accept.channelBit = s.channelBit := rfl

/-- What reading the message depends on. -/
theorem State.readM_congr {s t : State} (h : s.mMem = t.mMem) (j n : Nat) :
    s.readM j n = t.readM j n := by
  induction n generalizing j with
  | zero => rfl
  | succ n ih => simp only [State.readM, h, ih]

@[simp] theorem State.accept_message (s : State) : s.accept.message = s.message :=
  State.readM_congr (s := s.accept) (t := s) rfl _ _

/-- The malformed-buffer condition as a proposition (R142). -/
theorem State.malformed_iff (s : State) :
    s.malformed = true ↔ s.chans.toNat = 0 ∨ s.slen.toNat % s.chans.toNat ≠ 0 := by
  simp [State.malformed]

/-! The message (R42). -/

/-- Reading succeeds exactly when every cell holds a value, and gives the cells in order. -/
theorem State.readM_eq_ok {s : State} {j n : Nat} {bs : List Byte} :
    s.readM j n = .ok bs ↔ bs.length = n ∧ ∀ k, k < n → s.mMem.read (j + k) = bs[k]? := by
  induction n generalizing j bs with
  | zero =>
    simp only [State.readM, Except.ok.injEq]
    refine ⟨fun h => by subst h; simp, fun h => ?_⟩
    have := List.eq_nil_of_length_eq_zero h.1
    rw [this]
  | succ n ih =>
    simp only [State.readM]
    cases hf : s.mMem.fetch .m j with
    | error r =>
      have hf := (Memory.fetch_eq_error.mp hf).1
      refine ⟨nofun, fun ⟨hl, h⟩ => ?_⟩
      have := h 0 (by omega)
      rw [Nat.add_zero, hf, List.getElem?_eq_getElem (by omega)] at this
      cases this
    | ok b =>
      have hf := Memory.fetch_eq_ok.mp hf
      have step : ∀ bs' : List Byte, (∀ k, k < n → s.mMem.read (j + 1 + k) = bs'[k]?) ↔
          ∀ k, k < n + 1 → s.mMem.read (j + k) = (b :: bs')[k]? := by
        intro bs'
        refine ⟨fun h k hk => ?_, fun h k hk => ?_⟩
        · cases k with
          | zero => simpa using hf
          | succ k =>
            rw [List.getElem?_cons_succ, ← h k (by omega)]; congr 1; omega
        · have := h (k + 1) (by omega)
          rw [List.getElem?_cons_succ] at this
          rw [← this]; congr 1; omega
      cases hr : s.readM (j + 1) n with
      | error r =>
        refine ⟨nofun, fun ⟨hl, h⟩ => ?_⟩
        exfalso
        cases bs with
        | nil => simp at hl
        | cons c bs' =>
          have h0 := h 0 (by omega)
          rw [Nat.add_zero, hf] at h0
          obtain rfl : b = c := by simpa using h0
          have := (ih (j := j + 1) (bs := bs')).mpr ⟨by simpa using hl, (step bs').mpr h⟩
          rw [hr] at this
          cases this
      | ok bs' =>
        obtain ⟨hl', h'⟩ := ih.mp hr
        simp only [Except.ok.injEq]
        refine ⟨fun h => ?_, fun ⟨hl, h⟩ => ?_⟩
        · subst h
          exact ⟨by simpa using hl', (step bs').mp h'⟩
        · refine List.ext_getElem? fun k => ?_
          by_cases hk : k < n + 1
          · rw [← h k hk, (step bs').mp h' k hk]
          · rw [List.getElem?_eq_none (by simp; omega), List.getElem?_eq_none (by omega)]

/-- Reading stops at the first cell that nothing has written (U1). -/
theorem State.readM_eq_error {s : State} {j n : Nat} {r : Fault} (h : s.readM j n = .error r) :
    ∃ k, k < n ∧ s.mMem.read (j + k) = none ∧ (∀ i, i < k → (s.mMem.read (j + i)).isSome) ∧
      r = .unwrittenCell .m (j + k) := by
  induction n generalizing j with
  | zero => cases h
  | succ n ih =>
    simp only [State.readM] at h
    cases hf : s.mMem.fetch .m j with
    | error r' =>
      rw [hf] at h
      cases h
      obtain ⟨h1, h2⟩ := Memory.fetch_eq_error.mp hf
      exact ⟨0, by omega, h1, fun i hi => by omega, h2⟩
    | ok b =>
      rw [hf] at h
      cases hr : s.readM (j + 1) n with
      | ok bs => rw [hr] at h; cases h
      | error r' =>
        rw [hr] at h
        cases h
        obtain ⟨k, hk, h1, h2, h3⟩ := ih hr
        refine ⟨k + 1, by omega, by rw [← h1]; congr 1; omega, fun i hi => ?_, by rw [h3]; congr 1; omega⟩
        cases i with
        | zero => rw [Nat.add_zero, Memory.fetch_eq_ok.mp hf]; rfl
        | succ i =>
          have := h2 i (by omega)
          rwa [show j + 1 + i = j + (i + 1) by omega] at this

/-- The message `M[0 .. MLEN-1]`. -/
theorem State.message_eq_ok {s : State} {msg : List Byte} :
    s.message = .ok msg ↔ msg.length = s.mlen.toNat ∧ ∀ k, k < s.mlen.toNat → s.mMem.read k = msg[k]? := by
  simp [State.message, State.readM_eq_ok]

theorem State.message_eq_error {s : State} {r : Fault} (h : s.message = .error r) :
    ∃ k, k < s.mlen.toNat ∧ s.mMem.read k = none ∧ (∀ i, i < k → (s.mMem.read i).isSome) ∧
      r = .unwrittenCell .m k := by
  simpa using State.readM_eq_error h

/-- If every cell of the message is written, the message can be read. -/
theorem State.message_isOk {s : State} (h : ∀ k, k < s.mlen.toNat → (s.mMem.read k).isSome) :
    ∃ msg, s.message = .ok msg := by
  cases hm : s.message with
  | ok msg => exact ⟨msg, rfl⟩
  | error r =>
    obtain ⟨k, hk, hn, -⟩ := State.message_eq_error hm
    have := h k hk
    rw [hn] at this
    cases this

/-! The loop of `EMBED` (R114). -/

/-- Distinct audio frames have distinct designated samples. -/
theorem stride_injective {stride i j : Nat} (h : 0 < stride) (heq : i * stride = j * stride) : i = j :=
  Nat.eq_of_mul_eq_mul_right h heq

/-- What the loop does when it ends: each sample it passes had a value and has its LSB replaced, every
other cell is as before. -/
theorem embedBits_eq_ok {stride : Nat} (hs : 0 < stride) {bits : List Bit} {mem mem' : Memory 16} {i : Nat}
    (h : embedBits stride mem i bits = .ok mem') :
    (∀ k b, bits[k]? = some b → ∃ v, mem.read ((i + k) * stride) = some v ∧
      mem'.read ((i + k) * stride) = some (setLsb v b)) ∧
    ∀ x, (∀ k, k < bits.length → x ≠ (i + k) * stride) → mem'.read x = mem.read x := by
  induction bits generalizing mem i with
  | nil => cases h; exact ⟨fun k b hb => by simp at hb, fun x _ => rfl⟩
  | cons b bits ih =>
    simp only [embedBits] at h
    cases hf : mem.fetch .s (i * stride) with
    | error r => rw [hf] at h; cases h
    | ok v =>
      rw [hf] at h
      have hv := Memory.fetch_eq_ok.mp hf
      obtain ⟨h1, h2⟩ := ih h
      refine ⟨fun k c hc => ?_, fun x hx => ?_⟩
      · cases k with
        | zero =>
          obtain rfl : b = c := by simpa using hc
          refine ⟨v, by simpa using hv, ?_⟩
          rw [Nat.add_zero, h2 _ fun k hk heq => ?_, Memory.read_write_self]
          have := stride_injective hs heq
          omega
        | succ k =>
          obtain ⟨u, hu, hu'⟩ := h1 k c (by simpa using hc)
          rw [show i + 1 + k = i + (k + 1) by omega] at hu hu'
          refine ⟨u, ?_, hu'⟩
          rwa [Memory.read_write_of_ne] at hu
          intro heq
          have := stride_injective hs heq
          omega
      · rw [h2 x fun k hk => ?_, Memory.read_write_of_ne]
        · have := hx 0 (by simp)
          simpa using this
        · have := hx (k + 1) (by simpa using hk)
          rwa [show i + (k + 1) = i + 1 + k by omega] at this

/-- The loop stops only at a designated sample that nothing has written (U1). -/
theorem embedBits_eq_error {stride : Nat} (hs : 0 < stride) {bits : List Bit} {mem : Memory 16} {i : Nat}
    {r : Fault} (h : embedBits stride mem i bits = .error r) :
    ∃ k, k < bits.length ∧ mem.read ((i + k) * stride) = none ∧
      r = .unwrittenCell .s ((i + k) * stride) := by
  induction bits generalizing mem i with
  | nil => cases h
  | cons b bits ih =>
    simp only [embedBits] at h
    cases hf : mem.fetch .s (i * stride) with
    | error r' =>
      rw [hf] at h
      cases h
      obtain ⟨h1, h2⟩ := Memory.fetch_eq_error.mp hf
      exact ⟨0, by simp, by simpa using h1, by simpa using h2⟩
    | ok v =>
      rw [hf] at h
      obtain ⟨k, hk, h1, h2⟩ := ih h
      rw [show i + 1 + k = i + (k + 1) by omega] at h1 h2
      refine ⟨k + 1, by simpa using hk, ?_, h2⟩
      rwa [Memory.read_write_of_ne] at h1
      intro heq
      have := stride_injective hs heq
      omega

/-- If every designated sample of the frame is written, the loop ends. -/
theorem embedBits_isOk {stride : Nat} (hs : 0 < stride) {bits : List Bit} {mem : Memory 16} {i : Nat}
    (h : ∀ k, k < bits.length → (mem.read ((i + k) * stride)).isSome) :
    ∃ mem', embedBits stride mem i bits = .ok mem' := by
  cases he : embedBits stride mem i bits with
  | ok mem' => exact ⟨mem', rfl⟩
  | error r =>
    obtain ⟨k, hk, hn, -⟩ := embedBits_eq_error hs he
    have := h k hk
    rw [hn] at this
    cases this

/-- The loop keeps the canonical form. -/
theorem embedBits_wf {stride : Nat} {bits : List Bit} {mem mem' : Memory 16} {i : Nat} (hw : mem.wf)
    (hi : ∀ k, k < bits.length → (i + k) * stride < Config.cellCount)
    (h : embedBits stride mem i bits = .ok mem') : mem'.wf := by
  induction bits generalizing mem i with
  | nil => cases h; exact hw
  | cons b bits ih =>
    simp only [embedBits] at h
    cases hf : mem.fetch .s (i * stride) with
    | error r => rw [hf] at h; cases h
    | ok v =>
      rw [hf] at h
      refine ih (Memory.write_wf hw (by simpa using hi 0 (by simp)) _) (fun k hk => ?_) h
      have := hi (k + 1) (by simpa using hk)
      rwa [show i + (k + 1) = i + 1 + k by omega] at this

/-! The bit sources (R92, R123). -/

theorem State.frameBit_eq_ok {s : State} {k : Nat} {b : Bit} :
    s.frameBit k = .ok b ↔ s.fMem.read k = some b := Memory.fetch_eq_ok

theorem State.frameBit_eq_error {s : State} {k : Nat} {r : Fault} :
    s.frameBit k = .error r ↔ s.fMem.read k = none ∧ r = .unwrittenCell .f k := Memory.fetch_eq_error

theorem State.channelBit_eq_ok {s : State} {i : Nat} {b : Bit} :
    s.channelBit i = .ok b ↔ ∃ v, s.sMem.read (i * s.chans.toNat) = some v ∧ getLsb v = b := by
  unfold State.channelBit State.sampleIndex
  cases hf : s.sMem.fetch .s (i * s.chans.toNat) with
  | error r => simp [(Memory.fetch_eq_error.mp hf).1]
  | ok v => simp [Memory.fetch_eq_ok.mp hf]

theorem State.channelBit_eq_error {s : State} {i : Nat} {r : Fault} :
    s.channelBit i = .error r ↔
      s.sMem.read (i * s.chans.toNat) = none ∧ r = .unwrittenCell .s (i * s.chans.toNat) := by
  unfold State.channelBit State.sampleIndex
  cases hf : s.sMem.fetch .s (i * s.chans.toNat) with
  | error r' =>
    obtain ⟨h1, h2⟩ := Memory.fetch_eq_error.mp hf
    simp [h1, h2, eq_comm]
  | ok v => simp [Memory.fetch_eq_ok.mp hf]

/-! The accessor on bits (R100, R101). -/

theorem getLsb_eq_extract (p : Sample) : getLsb p = p.extractLsb' 0 1 := by
  apply BitVec.eq_of_getLsbD_eq
  intro i hi
  obtain rfl : i = 0 := by omega
  simp [getLsb]

theorem getLsb_setLsb (p : Sample) (b : Bit) : getLsb (setLsb p b) = b := by
  apply BitVec.eq_of_getLsbD_eq
  intro i hi
  obtain rfl : i = 0 := by omega
  simp [getLsb, setLsb]

theorem setLsb_getLsbD (p : Sample) (b : Bit) (i : Nat) (hi : 0 < i) :
    (setLsb p b).getLsbD i = p.getLsbD i := by
  by_cases h : i < 16
  · have : ∀ j : Fin 16, 0 < j.val → (0xFFFE#16).getLsbD j.val = true := by decide
    have hm := this ⟨i, h⟩ hi
    simp only at hm
    have hb : b.getLsbD i = false := BitVec.getLsbD_of_ge b i (by omega)
    simp only [setLsb, BitVec.getLsbD_or, BitVec.getLsbD_and, BitVec.getLsbD_setWidth, hm, hb]
    simp
  · rw [BitVec.getLsbD_of_ge _ _ (by omega), BitVec.getLsbD_of_ge _ _ (by omega)]

end Sys2Proof.Machine
end

