-- ==== Sys2Proof/Laws/Commands.lean ====
section
/-!
SUPPORT. Everything each command can do, said once: the outcomes of its meaning, each with the whole next
state, and the case split over them (spec/40_frame_codec.md R83, R92; spec/41_sample_bit_accessor.md R102,
R103; spec/42_embed.md R114; spec/43_extract.md R124; spec/60_exceptions.md R144).
-/

namespace Sys2Proof.Machine

/-- A command that failed with `e` in decoder state `ds`, having set `IDX` to `x`: nothing else has
changed (R144). -/
def State.failed (s : State) (e : ErrCode) (ds : DState) (x : Word) : State :=
  { s with status := ⟨false, true, e, ds⟩, idx := x, acc := [] }

/-- `ENCF` done with message `msg`. -/
def State.encfDone (s : State) (msg : List Byte) : State :=
  { s with
    status := ⟨false, true, .ok, .scanning⟩, acc := [], idx := BitVec.ofNat 32 s.required
    flen := BitVec.ofNat 32 s.required, fMem := s.fMem.writeFrom 0 (encodeFrame msg) }

/-- `EMBED` done with `mem` the new contents of `S`. -/
def State.embedDone (s : State) (mem : Memory 16) : State :=
  { s with
    status := ⟨false, true, .ok, .scanning⟩, acc := [], idx := BitVec.ofNat 32 s.required, sMem := mem }

/-- `DECF` or `EXTRACT` done, having consumed the bits `a`. -/
def State.decodeDone (s : State) (a : List Bit) : State :=
  { s with
    status := ⟨false, true, .ok, .found⟩, acc := [], idx := BitVec.ofNat 32 a.length
    mlen := BitVec.ofNat 32 (messageOf .padZeroRight a a.length).length
    mMem := s.mMem.writeFrom 0 (messageOf .padZeroRight a a.length) }

theorem State.deliver_found (s : State) (a : List Bit) (e : ErrCode) :
    s.accept.deliver ⟨.found, a⟩ e = s.decodeDone a := by
  simp only [State.deliver, Config.tailPolicy, State.decodeDone, State.complete, State.accept]

theorem State.deliver_exhausted (s : State) (a : List Bit) (e : ErrCode) :
    s.accept.deliver ⟨.exhausted, a⟩ e = s.failed e .exhausted (BitVec.ofNat 32 a.length) := by
  simp only [State.deliver, State.failed, State.fail, State.complete, State.accept]

theorem exec_getlsb (s : State) : exec .getlsb s = .next
    { s with status := ⟨false, true, .ok, .scanning⟩, idx := 0#32, acc := [], bitv := getLsb s.samp } := rfl

theorem exec_setlsb (s : State) : exec .setlsb s = .next
    { s with
      status := ⟨false, true, .ok, .scanning⟩, idx := 0#32, acc := [], samp := setLsb s.samp s.bitv } := rfl

/-! `ENCF`. -/

theorem exec_encf_overflow {s : State} (h : 2 ^ 32 - 1 < s.required) :
    exec .encf s = .next (s.failed .capacityExceeded .scanning 0#32) := by
  show execEncf s = _
  unfold execEncf
  exact if_pos h

theorem exec_encf_ok {s : State} (h : s.required ≤ 2 ^ 32 - 1) {msg : List Byte} (hm : s.message = .ok msg) :
    exec .encf s = .next (s.encfDone msg) := by
  show execEncf s = _
  unfold execEncf
  refine (if_neg (show ¬ s.required > 2 ^ 32 - 1 by omega)).trans ?_
  rw [State.accept_message, hm]
  rfl

theorem exec_encf_error {s : State} (h : s.required ≤ 2 ^ 32 - 1) {r : Fault} (hm : s.message = .error r) :
    exec .encf s = .fault r := by
  show execEncf s = _
  unfold execEncf
  refine (if_neg (show ¬ s.required > 2 ^ 32 - 1 by omega)).trans ?_
  rw [State.accept_message, hm]

/-- Everything `ENCF` can do. -/
theorem exec_encf_cases (s : State) :
    (2 ^ 32 - 1 < s.required ∧ exec .encf s = .next (s.failed .capacityExceeded .scanning 0#32)) ∨
    (∃ msg, s.required ≤ 2 ^ 32 - 1 ∧ s.message = .ok msg ∧ exec .encf s = .next (s.encfDone msg)) ∨
    (∃ r, s.required ≤ 2 ^ 32 - 1 ∧ s.message = .error r ∧ exec .encf s = .fault r) := by
  by_cases h : 2 ^ 32 - 1 < s.required
  · exact .inl ⟨h, exec_encf_overflow h⟩
  · have h : s.required ≤ 2 ^ 32 - 1 := by omega
    cases hm : s.message with
    | ok msg => exact .inr (.inl ⟨msg, h, rfl, exec_encf_ok h hm⟩)
    | error r => exact .inr (.inr ⟨r, h, rfl, exec_encf_error h hm⟩)

/-! `DECF`. -/

theorem exec_decf_found {s : State} {a : List Bit} (h : ScanEnd s.frameBit s.flen.toNat ⟨.found, a⟩) :
    exec .decf s = .next (s.decodeDone a) := by
  show execDecf s = _
  unfold execDecf
  simp only [State.accept_frameBit, State.accept_flen, decodeFrame_eq_ok h, State.deliver_found]

theorem exec_decf_exhausted {s : State} {a : List Bit}
    (h : ScanEnd s.frameBit s.flen.toNat ⟨.exhausted, a⟩) :
    exec .decf s = .next (s.failed .incomplete .exhausted (BitVec.ofNat 32 a.length)) := by
  show execDecf s = _
  unfold execDecf
  simp only [State.accept_frameBit, State.accept_flen, decodeFrame_eq_ok h, State.deliver_exhausted]

/-- Everything `DECF` can do. -/
theorem exec_decf_cases (s : State) :
    (∃ a, ScanEnd s.frameBit s.flen.toNat ⟨.found, a⟩ ∧ exec .decf s = .next (s.decodeDone a)) ∨
    (∃ a, ScanEnd s.frameBit s.flen.toNat ⟨.exhausted, a⟩ ∧
      exec .decf s = .next (s.failed .incomplete .exhausted (BitVec.ofNat 32 a.length))) ∨
    (∃ r a, ScanStop s.frameBit s.flen.toNat r a ∧ exec .decf s = .fault r) := by
  cases hd : decodeFrame s.frameBit s.flen.toNat with
  | ok d =>
    have h := (decodeFrame_spec _ _).1 d hd
    obtain ⟨st, a⟩ := d
    rcases h.outcome with ⟨h1, -⟩ | ⟨h1, -⟩ <;> simp only at h1 <;> subst h1
    · exact .inl ⟨a, h, exec_decf_found h⟩
    · exact .inr (.inl ⟨a, h, exec_decf_exhausted h⟩)
  | error r =>
    obtain ⟨a, h⟩ := (decodeFrame_spec _ _).2 r hd
    refine .inr (.inr ⟨r, a, h, ?_⟩)
    show execDecf s = _
    unfold execDecf
    simp only [State.accept_frameBit, State.accept_flen, hd]

/-! `EMBED`. -/

theorem exec_embed_malformed {s : State} (h : s.malformed = true) :
    exec .embed s = .next (s.failed .malformedBuffer .scanning 0#32) := by
  show execEmbed s = _
  unfold execEmbed
  simp only [State.accept_malformed, h, if_true]
  rfl

theorem exec_embed_capacity {s : State} (h : s.malformed = false) (hc : s.available < s.required) :
    exec .embed s = .next (s.failed .capacityExceeded .scanning 0#32) := by
  show execEmbed s = _
  unfold execEmbed
  refine (if_neg (show ¬ s.malformed = true by simp [h])).trans ?_
  exact if_pos hc

theorem exec_embed_ok {s : State} (h : s.malformed = false) (hc : s.required ≤ s.available)
    {msg : List Byte} (hm : s.message = .ok msg) {mem : Memory 16}
    (he : embedBits s.chans.toNat s.sMem 0 (encodeFrame msg) = .ok mem) :
    exec .embed s = .next (s.embedDone mem) := by
  show execEmbed s = _
  unfold execEmbed
  refine (if_neg (show ¬ s.malformed = true by simp [h])).trans ?_
  refine (if_neg (show ¬ s.required > s.available by omega)).trans ?_
  rw [State.accept_message, hm]
  simp only [State.accept_chans, State.accept_sMem, he]
  rfl

theorem exec_embed_message_error {s : State} (h : s.malformed = false) (hc : s.required ≤ s.available)
    {r : Fault} (hm : s.message = .error r) : exec .embed s = .fault r := by
  show execEmbed s = _
  unfold execEmbed
  refine (if_neg (show ¬ s.malformed = true by simp [h])).trans ?_
  refine (if_neg (show ¬ s.required > s.available by omega)).trans ?_
  rw [State.accept_message, hm]

theorem exec_embed_sample_error {s : State} (h : s.malformed = false) (hc : s.required ≤ s.available)
    {msg : List Byte} (hm : s.message = .ok msg) {r : Fault}
    (he : embedBits s.chans.toNat s.sMem 0 (encodeFrame msg) = .error r) : exec .embed s = .fault r := by
  show execEmbed s = _
  unfold execEmbed
  refine (if_neg (show ¬ s.malformed = true by simp [h])).trans ?_
  refine (if_neg (show ¬ s.required > s.available by omega)).trans ?_
  rw [State.accept_message, hm]
  simp only [State.accept_chans, State.accept_sMem, he]

/-- Everything `EMBED` can do. -/
theorem exec_embed_cases (s : State) :
    (s.malformed = true ∧ exec .embed s = .next (s.failed .malformedBuffer .scanning 0#32)) ∨
    (s.malformed = false ∧ s.available < s.required ∧
      exec .embed s = .next (s.failed .capacityExceeded .scanning 0#32)) ∨
    (∃ msg mem, s.malformed = false ∧ s.required ≤ s.available ∧ s.message = .ok msg ∧
      embedBits s.chans.toNat s.sMem 0 (encodeFrame msg) = .ok mem ∧
      exec .embed s = .next (s.embedDone mem)) ∨
    (∃ r, s.malformed = false ∧ s.required ≤ s.available ∧ s.message = .error r ∧
      exec .embed s = .fault r) ∨
    (∃ r msg, s.malformed = false ∧ s.required ≤ s.available ∧ s.message = .ok msg ∧
      embedBits s.chans.toNat s.sMem 0 (encodeFrame msg) = .error r ∧ exec .embed s = .fault r) := by
  cases h : s.malformed with
  | true => exact .inl ⟨rfl, exec_embed_malformed h⟩
  | false =>
    by_cases hc : s.available < s.required
    · exact .inr (.inl ⟨rfl, hc, exec_embed_capacity h hc⟩)
    · have hc : s.required ≤ s.available := by omega
      cases hm : s.message with
      | error r => exact .inr (.inr (.inr (.inl ⟨r, rfl, hc, rfl, exec_embed_message_error h hc hm⟩)))
      | ok msg =>
        cases he : embedBits s.chans.toNat s.sMem 0 (encodeFrame msg) with
        | error r =>
          exact .inr (.inr (.inr (.inr ⟨r, msg, rfl, hc, rfl, he, exec_embed_sample_error h hc hm he⟩)))
        | ok mem => exact .inr (.inr (.inl ⟨msg, mem, rfl, hc, rfl, he, exec_embed_ok h hc hm he⟩))

/-! `EXTRACT`. -/

theorem exec_extract_malformed {s : State} (h : s.malformed = true) :
    exec .extract s = .next (s.failed .malformedBuffer .scanning 0#32) := by
  show execExtract s = _
  unfold execExtract
  simp only [State.accept_malformed, h, if_true]
  rfl

theorem exec_extract_found {s : State} (hm : s.malformed = false) {a : List Bit}
    (h : ScanEnd s.channelBit s.available ⟨.found, a⟩) :
    exec .extract s = .next (s.decodeDone a) := by
  show execExtract s = _
  unfold execExtract
  simp only [State.accept_malformed, hm, State.accept_channelBit, State.accept_available,
    decodeFrame_eq_ok h, State.deliver_found]
  rfl

theorem exec_extract_exhausted {s : State} (hm : s.malformed = false) {a : List Bit}
    (h : ScanEnd s.channelBit s.available ⟨.exhausted, a⟩) :
    exec .extract s = .next (s.failed .noWatermarkFound .exhausted (BitVec.ofNat 32 a.length)) := by
  show execExtract s = _
  unfold execExtract
  simp only [State.accept_malformed, hm, State.accept_channelBit, State.accept_available,
    decodeFrame_eq_ok h, State.deliver_exhausted]
  rfl

/-- Everything `EXTRACT` can do. -/
theorem exec_extract_cases (s : State) :
    (s.malformed = true ∧ exec .extract s = .next (s.failed .malformedBuffer .scanning 0#32)) ∨
    (∃ a, s.malformed = false ∧ ScanEnd s.channelBit s.available ⟨.found, a⟩ ∧
      exec .extract s = .next (s.decodeDone a)) ∨
    (∃ a, s.malformed = false ∧ ScanEnd s.channelBit s.available ⟨.exhausted, a⟩ ∧
      exec .extract s = .next (s.failed .noWatermarkFound .exhausted (BitVec.ofNat 32 a.length))) ∨
    (∃ r a, s.malformed = false ∧ ScanStop s.channelBit s.available r a ∧ exec .extract s = .fault r) := by
  cases hm : s.malformed with
  | true => exact .inl ⟨rfl, exec_extract_malformed hm⟩
  | false =>
    cases hd : decodeFrame s.channelBit s.available with
    | ok d =>
      have h := (decodeFrame_spec _ _).1 d hd
      obtain ⟨st, a⟩ := d
      rcases h.outcome with ⟨h1, -⟩ | ⟨h1, -⟩ <;> simp only at h1 <;> subst h1
      · exact .inr (.inl ⟨a, rfl, h, exec_extract_found hm h⟩)
      · exact .inr (.inr (.inl ⟨a, rfl, h, exec_extract_exhausted hm h⟩))
    | error r =>
      obtain ⟨a, h⟩ := (decodeFrame_spec _ _).2 r hd
      refine .inr (.inr (.inr ⟨r, a, rfl, h, ?_⟩))
      show execExtract s = _
      unfold execExtract
      simp only [State.accept_malformed, hm, State.accept_channelBit, State.accept_available, hd]
      rfl

/-! All commands at once. -/

/-- Everything a command can have done when it answers a next state. -/
theorem exec_next_cases {i : Instr} {s t : State} (h : exec i s = .next t) :
    (i = .getlsb ∧ t =
      { s with status := ⟨false, true, .ok, .scanning⟩, idx := 0#32, acc := [], bitv := getLsb s.samp }) ∨
    (i = .setlsb ∧ t =
      { s with
        status := ⟨false, true, .ok, .scanning⟩, idx := 0#32, acc := [], samp := setLsb s.samp s.bitv }) ∨
    (i = .encf ∧ 2 ^ 32 ≤ s.required ∧ t = s.failed .capacityExceeded .scanning 0#32) ∨
    (∃ msg, i = .encf ∧ s.required < 2 ^ 32 ∧ s.message = .ok msg ∧ t = s.encfDone msg) ∨
    (∃ a, i = .decf ∧ ScanEnd s.frameBit s.flen.toNat ⟨.found, a⟩ ∧ t = s.decodeDone a) ∨
    (∃ a, i = .decf ∧ ScanEnd s.frameBit s.flen.toNat ⟨.exhausted, a⟩ ∧
      t = s.failed .incomplete .exhausted s.flen) ∨
    ((i = .embed ∨ i = .extract) ∧ s.malformed = true ∧ t = s.failed .malformedBuffer .scanning 0#32) ∨
    (i = .embed ∧ s.malformed = false ∧ s.available < s.required ∧
      t = s.failed .capacityExceeded .scanning 0#32) ∨
    (∃ msg mem, i = .embed ∧ s.malformed = false ∧ s.required ≤ s.available ∧ s.message = .ok msg ∧
      embedBits s.chans.toNat s.sMem 0 (encodeFrame msg) = .ok mem ∧ t = s.embedDone mem) ∨
    (∃ a, i = .extract ∧ s.malformed = false ∧ ScanEnd s.channelBit s.available ⟨.found, a⟩ ∧
      t = s.decodeDone a) ∨
    (∃ a, i = .extract ∧ s.malformed = false ∧ ScanEnd s.channelBit s.available ⟨.exhausted, a⟩ ∧
      t = s.failed .noWatermarkFound .exhausted (BitVec.ofNat 32 s.available)) := by
  have hlen : ∀ {bits m a}, ScanEnd bits m ⟨.exhausted, a⟩ → a.length = m := fun h => by
    rcases h.outcome with ⟨h1, -⟩ | ⟨-, h1, -⟩
    · cases h1
    · exact h1
  cases i with
  | getlsb => rw [exec_getlsb] at h; cases h; exact .inl ⟨rfl, rfl⟩
  | setlsb => rw [exec_setlsb] at h; cases h; exact .inr (.inl ⟨rfl, rfl⟩)
  | encf =>
    rcases exec_encf_cases s with ⟨h1, e⟩ | ⟨msg, h1, h2, e⟩ | ⟨r, -, -, e⟩ <;> rw [e] at h <;> cases h
    · exact .inr (.inr (.inl ⟨rfl, by omega, rfl⟩))
    · exact .inr (.inr (.inr (.inl ⟨msg, rfl, by omega, h2, rfl⟩)))
  | decf =>
    rcases exec_decf_cases s with ⟨a, ha, e⟩ | ⟨a, ha, e⟩ | ⟨r, -, -, e⟩ <;> rw [e] at h <;> cases h
    · exact .inr (.inr (.inr (.inr (.inl ⟨a, rfl, ha, rfl⟩))))
    · refine .inr (.inr (.inr (.inr (.inr (.inl ⟨a, rfl, ha, ?_⟩)))))
      rw [hlen ha, BitVec.ofNat_toNat, BitVec.setWidth_eq]
  | embed =>
    rcases exec_embed_cases s with ⟨h1, e⟩ | ⟨h1, h2, e⟩ | ⟨msg, mem, h1, h2, h3, h4, e⟩ | ⟨r, -, -, -, e⟩ |
      ⟨r, msg, -, -, -, -, e⟩ <;> rw [e] at h <;> cases h
    · exact .inr (.inr (.inr (.inr (.inr (.inr (.inl ⟨.inl rfl, h1, rfl⟩))))))
    · exact .inr (.inr (.inr (.inr (.inr (.inr (.inr (.inl ⟨rfl, h1, h2, rfl⟩)))))))
    · exact .inr (.inr (.inr (.inr (.inr (.inr (.inr (.inr (.inl ⟨msg, mem, rfl, h1, h2, h3, h4, rfl⟩))))))))
  | extract =>
    rcases exec_extract_cases s with ⟨h1, e⟩ | ⟨a, h1, ha, e⟩ | ⟨a, h1, ha, e⟩ | ⟨r, a, -, -, e⟩ <;>
      rw [e] at h <;> cases h
    · exact .inr (.inr (.inr (.inr (.inr (.inr (.inl ⟨.inr rfl, h1, rfl⟩))))))
    · exact .inr (.inr (.inr (.inr (.inr (.inr (.inr (.inr (.inr (.inl ⟨a, rfl, h1, ha, rfl⟩)))))))))
    · refine .inr (.inr (.inr (.inr (.inr (.inr (.inr (.inr (.inr (.inr ⟨a, rfl, h1, ha, ?_⟩)))))))))
      rw [hlen ha]

/-! Lengths and the canonical form. -/

/-- The bound of a scan fits a 32-bit register (R122). -/
theorem State.available_le (s : State) : s.available ≤ s.slen.toNat := Nat.div_le_self _ _

/-- The message a command delivers fits the message space, and its length `MLEN`. -/
theorem length_message_lt {bits : Nat → Except Fault Bit} {m : Nat} {d : Decoder} (h : ScanEnd bits m d)
    (hm : m < 2 ^ 32) : (messageOf .padZeroRight d.acc d.acc.length).length < 2 ^ 29 := by
  rw [length_messageOf_padZeroRight]
  have := h.le
  omega

/-- A command keeps the canonical form of every space. -/
theorem State.decodeDone_wf {s : State} {bits : Nat → Except Fault Bit} {m : Nat} {a : List Bit}
    (h : ScanEnd bits m ⟨.found, a⟩) (hm : m < 2 ^ 32) (hw : s.mMem.wf) : (s.decodeDone a).mMem.wf := by
  have := length_message_lt h hm
  simp only at this
  exact Memory.writeFrom_wf _ hw 0 (by simp only [Config.cellCount]; omega)

theorem State.encfDone_wf {s : State} {msg : List Byte} (h : s.required ≤ 2 ^ 32 - 1)
    (hm : s.message = .ok msg) (hw : s.fMem.wf) : (s.encfDone msg).fMem.wf := by
  have hl := (State.message_eq_ok.mp hm).1
  unfold State.required at h
  exact Memory.writeFrom_wf _ hw 0 (by rw [length_encodeFrame, hl]; simp only [Config.cellCount]; omega)

/-- No index that `EMBED` reaches passes the end of the buffer (R113). -/
theorem State.embed_index_lt {s : State} (hm : s.malformed = false) {k : Nat} (hk : k < s.available) :
    k * s.chans.toNat < s.slen.toNat := by
  have hpos : 0 < s.chans.toNat := by
    rcases Nat.eq_zero_or_pos s.chans.toNat with h | h
    · rw [(State.malformed_iff s).mpr (.inl h)] at hm; cases hm
    · exact h
  have h1 : (k + 1) * s.chans.toNat ≤ s.available * s.chans.toNat := Nat.mul_le_mul_right _ hk
  have h2 : s.available * s.chans.toNat ≤ s.slen.toNat := Nat.div_mul_le_self _ _
  rw [Nat.add_mul] at h1
  omega

end Sys2Proof.Machine
end

