-- ==== Sys2Proof/Laws/Datapath.lean ====
section
/-!
SUPPORT. The reference datapath of the decoder (spec/40_frame_codec.md R97): what its registers hold after
the bits consumed so far, and the message it delivers.
-/

namespace Sys2Proof.Machine

/-! Groups of a growing sequence. -/

theorem groupValue_append (a b : List Bit) {start r : Nat} (h : start + r ≤ a.length) :
    groupValue (a ++ b) start r = groupValue a start r := by
  unfold groupValue
  rw [List.drop_append_of_le_length (by omega), List.take_append_of_le_length (by simp; omega)]

theorem groupValue_succ (a : List Bit) {start r : Nat} {b : Bit} (h : a[start + r]? = some b) :
    groupValue a start (r + 1) = 2 * groupValue a start r + b.toNat := by
  unfold groupValue
  rw [List.take_add_one, List.getElem?_drop, h]
  exact bitsValue_append _ _

theorem groupValue_lt (a : List Bit) (start r : Nat) : groupValue a start r < 2 ^ r := by
  refine lt_of_lt_of_le (bitsValue_lt _) (Nat.pow_le_pow_right (by omega) ?_)
  simp

/-- What the datapath's registers hold once the bits `a` have been consumed: the window is the last 16 of
them, and the bits that have left it are assembled in groups of 8 (R97). -/
structure Datapath.Tracks (d : Datapath) (a : List Bit) : Prop where
  n : d.n = a.length
  win : d.win = BitVec.ofNat 16 (bitsValue a)
  g : d.g = (a.length - 16) % 8
  byt : d.byt.toNat % 2 ^ d.g = groupValue a (8 * ((a.length - 16) / 8)) ((a.length - 16) % 8)
  bytes : d.bytes = (List.range ((a.length - 16) / 8)).map fun j => BitVec.ofNat 8 (groupValue a (8 * j) 8)

theorem Datapath.initial_tracks : Datapath.initial.Tracks [] := ⟨rfl, rfl, rfl, rfl, rfl⟩

/-- The bit that leaves the window is the one consumed 16 bits earlier. -/
theorem Datapath.Tracks.leaving {d : Datapath} {a : List Bit} (h : d.Tracks a) (hn : 16 ≤ a.length) :
    a[a.length - 16]? = some (d.win.extractLsb' 15 1) := by
  have ht := bitsValue_testBit a 15 (by omega)
  rw [show a.length - 1 - 15 = a.length - 16 by omega,
    List.getElem?_eq_getElem (show a.length - 16 < a.length by omega)] at ht
  rw [List.getElem?_eq_getElem (show a.length - 16 < a.length by omega)]
  have hw : d.win.extractLsb' 15 1 = BitVec.ofBool ((bitsValue a).testBit 15) := by
    rw [h.win]
    apply BitVec.eq_of_getLsbD_eq
    intro i hi
    obtain rfl : i = 0 := by omega
    simp only [BitVec.getLsbD_extractLsb', BitVec.getLsbD_ofNat, BitVec.getLsbD_ofBool]
    simp
  rw [hw, ht]
  rcases bit_cases a[a.length - 16] with e | e <;> rw [e] <;> rfl

theorem toNat_shift_in {w : Nat} (hw : 0 < w) (v : BitVec w) (b : Bit) :
    (v <<< 1 ||| b.setWidth w).toNat = (2 * v.toNat + b.toNat) % 2 ^ w := by
  obtain ⟨w, rfl⟩ : ∃ k, w = k + 1 := ⟨w - 1, by omega⟩
  have hb : b.toNat < 2 := b.isLt
  have h2 : (2 : Nat) ^ (w + 1) = 2 * 2 ^ w := by rw [pow_succ, Nat.mul_comm]
  have hpos : 0 < 2 ^ w := Nat.two_pow_pos w
  have hor := Nat.two_pow_add_eq_or_of_lt (i := 1) (b := b.toNat) (by simpa using hb) (v.toNat % 2 ^ w)
  rw [pow_one] at hor
  rw [BitVec.toNat_or, BitVec.toNat_shiftLeft, BitVec.toNat_setWidth, Nat.mod_eq_of_lt (a := b.toNat) (by omega),
    Nat.shiftLeft_eq, pow_one, Nat.mul_comm v.toNat 2, h2, Nat.mul_mod_mul_left,
    ← hor]
  have hd := Nat.div_add_mod v.toNat (2 ^ w)
  have hm := Nat.mod_lt v.toNat hpos
  have he : 2 * v.toNat + b.toNat = 2 * (v.toNat % 2 ^ w) + b.toNat + 2 * 2 ^ w * (v.toNat / 2 ^ w) := by
    conv_lhs => rw [← hd]
    ring
  exact (Nat.mod_eq_of_lt (by omega)).symm.trans
    ((Nat.add_mul_mod_self_left _ (2 * 2 ^ w) (v.toNat / 2 ^ w)).symm.trans (by rw [← he]))

theorem Datapath.Tracks.shift {d : Datapath} {a : List Bit} (h : d.Tracks a) (b : Bit) :
    (d.shift b).Tracks (a ++ [b]) := by
  have hl : (a ++ [b]).length = a.length + 1 := by simp
  have hwin : (d.win <<< 1 ||| b.setWidth 16) = BitVec.ofNat 16 (bitsValue (a ++ [b])) := by
    apply BitVec.eq_of_toNat_eq
    rw [toNat_shift_in (by omega), h.win, bitsValue_append, BitVec.toNat_ofNat, BitVec.toNat_ofNat]
    omega
  by_cases hn : a.length < 16
  · have ha : d.assemble = d := if_pos (by rw [h.n]; exact hn)
    have h0 : a.length - 16 = 0 := by omega
    have h1 : (a ++ [b]).length - 16 = 0 := by omega
    have hg := h.g
    have hb := h.bytes
    rw [h0] at hg hb
    unfold Datapath.shift
    rw [ha]
    refine ⟨by simp [h.n], hwin, by rw [h1]; exact hg, ?_, by rw [h1]; exact hb⟩
    rw [h1]
    show d.byt.toNat % 2 ^ d.g = _
    rw [hg]
    exact Nat.mod_one _
  · have hn : 16 ≤ a.length := by omega
    have hleave := h.leaving hn
    have hm : (a ++ [b]).length - 16 = a.length - 16 + 1 := by omega
    have hassemble : d.assemble =
        if d.g + 1 = 8 then
          { d with
            byt := d.byt <<< 1 ||| (d.win.extractLsb' 15 1).setWidth 8, g := 0
            bytes := d.bytes ++ [d.byt <<< 1 ||| (d.win.extractLsb' 15 1).setWidth 8] }
        else { d with byt := d.byt <<< 1 ||| (d.win.extractLsb' 15 1).setWidth 8, g := d.g + 1 } :=
      if_neg (by rw [h.n]; omega)
    have hx := (d.win.extractLsb' 15 1).isLt
    have hbyt := toNat_shift_in (w := 8) (by omega) d.byt (d.win.extractLsb' 15 1)
    have hgv : groupValue (a ++ [b]) (8 * ((a.length - 16) / 8)) ((a.length - 16) % 8 + 1) =
        2 * (d.byt.toNat % 2 ^ d.g) + (d.win.extractLsb' 15 1).toNat := by
      rw [groupValue_succ (a ++ [b]) (b := d.win.extractLsb' 15 1), groupValue_append _ _ (by omega), h.byt]
      rw [List.getElem?_append_left (by omega), ← hleave]
      congr 1
      omega
    have hold : ((List.range ((a.length - 16) / 8)).map fun j =>
        BitVec.ofNat 8 (groupValue (a ++ [b]) (8 * j) 8)) = d.bytes := by
      rw [h.bytes]
      refine List.map_congr_left fun j hj => ?_
      rw [List.mem_range] at hj
      rw [groupValue_append _ _ (by omega)]
    unfold Datapath.shift
    rw [hassemble]
    by_cases hfull : d.g + 1 = 8
    · have hg7 : d.g = 7 := by omega
      have hr7 : (a.length - 16) % 8 = 7 := by rw [← h.g]; exact hg7
      rw [if_pos hfull]
      rw [hr7, hg7] at hgv
      refine ⟨by simp [h.n], hwin, ?_, ?_, ?_⟩
      · show 0 = _; omega
      · show _ % 2 ^ 0 = _
        rw [hm, show (a.length - 16 + 1) % 8 = 0 by omega, pow_zero, Nat.mod_one]
        rfl
      · show d.bytes ++ [_] = _
        rw [hm, show (a.length - 16 + 1) / 8 = (a.length - 16) / 8 + 1 by omega, List.range_succ, List.map_append,
          hold, List.map_singleton, hgv]
        congr 2
        apply BitVec.eq_of_toNat_eq
        rw [hbyt, BitVec.toNat_ofNat]
        omega
    · have hr : (a.length - 16) % 8 + 1 < 8 := by rw [← h.g]; have := h.g; omega
      rw [if_neg hfull]
      refine ⟨by simp [h.n], hwin, ?_, ?_, ?_⟩
      · show d.g + 1 = _
        rw [h.g]; omega
      · show BitVec.toNat _ % 2 ^ (d.g + 1) = _
        rw [hm, show (a.length - 16 + 1) / 8 = (a.length - 16) / 8 by omega,
          show (a.length - 16 + 1) % 8 = (a.length - 16) % 8 + 1 by omega, hgv, hbyt,
          Nat.mod_mod_of_dvd _ (Nat.pow_dvd_pow 2 (by rw [h.g]; omega)), pow_succ, Nat.mul_comm (2 ^ d.g) 2]
        have := Nat.mod_lt d.byt.toNat (Nat.two_pow_pos d.g)
        have hd := Nat.div_add_mod d.byt.toNat (2 ^ d.g)
        generalize d.byt.toNat / 2 ^ d.g = k at hd
        generalize d.byt.toNat % 2 ^ d.g = m at hd this ⊢
        have : 2 * d.byt.toNat + (d.win.extractLsb' 15 1).toNat =
            2 * m + (d.win.extractLsb' 15 1).toNat + 2 * 2 ^ d.g * k := by
          rw [← hd]; ring
        rw [this, Nat.add_mul_mod_self_left, Nat.mod_eq_of_lt (by omega)]
      · show d.bytes = _
        rw [hm, show (a.length - 16 + 1) / 8 = (a.length - 16) / 8 by omega, hold]

/-- The datapath's `Found` is the terminator test (R88). -/
theorem Datapath.Tracks.found_iff {d : Datapath} {a : List Bit} (h : d.Tracks a) :
    d.found = termAt a a.length := by
  rw [Bool.eq_iff_iff, termAt_iff le_rfl]
  unfold Datapath.found
  rw [h.n, h.win, Bool.and_eq_true, decide_eq_true_iff, beq_iff_eq]
  refine and_congr_right fun hn => ?_
  constructor
  · intro hz k h1 h2
    have ht := bitsValue_testBit a (a.length - 1 - k) (by omega)
    rw [show a.length - 1 - (a.length - 1 - k) = k by omega] at ht
    have : (BitVec.ofNat 16 (bitsValue a)).getLsbD (a.length - 1 - k) = false := by rw [hz]; simp
    rw [BitVec.getLsbD_ofNat, ht, List.getElem?_eq_getElem h2] at this
    rw [List.getElem?_eq_getElem h2]
    rcases bit_cases a[k] with e | e
    · rw [e]
    · rw [e] at this
      simp at this
      omega
  · intro hz
    apply BitVec.eq_of_getLsbD_eq
    intro i hi
    rw [BitVec.getLsbD_ofNat, bitsValue_testBit a i (by omega), hz (a.length - 1 - i) (by omega) (by omega)]
    simp

/-- The datapath's message is the decoder's (R91). -/
theorem Datapath.Tracks.message_eq {d : Datapath} {a : List Bit} (h : d.Tracks a) :
    d.message = messageOf .padZeroRight a a.length := by
  unfold Datapath.message messageOf
  dsimp only
  rw [← h.bytes]
  by_cases hr : (a.length - 16) % 8 = 0
  · rw [if_pos hr, if_neg (by rw [h.g]; omega)]
  · rw [if_neg hr, if_pos (by rw [h.g]; omega)]
    congr 2
    have hb := h.byt
    rw [h.g] at hb ⊢
    rw [← hb]
    apply BitVec.eq_of_toNat_eq
    rw [BitVec.toNat_shiftLeft, Nat.shiftLeft_eq, BitVec.toNat_ofNat]
    generalize d.byt.toNat = v
    have hr8 : (a.length - 16) % 8 < 8 := Nat.mod_lt _ (by omega)
    generalize (a.length - 16) % 8 = r at hr hr8 ⊢
    have hp : 2 ^ r * 2 ^ (8 - r) = 2 ^ 8 := by rw [← pow_add]; congr 1; omega
    rw [← hp, Nat.mul_mod_mul_right, Nat.mul_mod_mul_right, Nat.mod_mod]

end Sys2Proof.Machine
end

