-- ==== Sys2Proof/Laws/PerInstr.lean ====
section
/-!
SUPPORT. The per-instruction law families of LAWS.json. `DecodeEncode`: the command word of a command
decodes to it (spec/30_encoding.md R62, R64), one lemma per constructor.
-/

namespace Sys2Proof.Laws

/-- What the family says of one command. -/
def DecodeEncode.Statement (i : Instr) : Prop := i.wellFormed = true → decode (encode i) = some i

theorem DecodeEncode.encf : DecodeEncode.Statement .encf := fun _ => by decide
theorem DecodeEncode.decf : DecodeEncode.Statement .decf := fun _ => by decide
theorem DecodeEncode.getlsb : DecodeEncode.Statement .getlsb := fun _ => by decide
theorem DecodeEncode.setlsb : DecodeEncode.Statement .setlsb := fun _ => by decide
theorem DecodeEncode.embed : DecodeEncode.Statement .embed := fun _ => by decide
theorem DecodeEncode.extract : DecodeEncode.Statement .extract := fun _ => by decide

end Sys2Proof.Laws
end

