-- ==== Sys2Proof/Laws/Step.lean ====
section
/-!
SUPPORT. Everything a step can do: which host action it performs, what the actions of the register and cell
ports leave, and what an abandoned command leaves (spec/30_encoding.md R66, R72; spec/70_reset_and_hazards.md
R160, R161, R166, R171).
-/

namespace Sys2Proof.Machine

theorem step_nil {s : State} (h : s.script = []) (hb : s.status.busy = false) : step s = .next s := by
  unfold step State.advance State.afterScript
  rw [h, hb]
  rfl

theorem step_nil_busy {s : State} (h : s.script = []) (hb : s.status.busy = true) :
    step s = .refused .commandInExecution := by
  unfold step State.advance State.afterScript
  rw [h, hb]
  rfl

theorem step_cons {s : State} {a : HostAction} {rest : List HostAction} (h : s.script = a :: rest) :
    step s = { s with script := rest }.hostAction a := by
  unfold step State.advance
  rw [h]

theorem State.hostAction_idle {s : State} (h : s.status.busy = false) (a : HostAction) :
    s.hostAction a = s.idleAction a := by
  unfold State.hostAction
  rw [h]
  rfl

theorem State.hostAction_busy {s : State} (h : s.status.busy = true) (a : HostAction) :
    s.hostAction a = s.busyAction a := by
  unfold State.hostAction
  rw [h]
  rfl

theorem State.idleAction_command (s : State) (w : Word) : s.idleAction (.wr 0 w) = s.issue w := rfl

theorem State.idleAction_wr (s : State) {reg : Nat} (h : reg ≠ 0) (d : Word) :
    s.idleAction (.wr reg d) = .next (s.writeReg reg d) := if_neg h

theorem State.issue_legal {w : Word} {i : Instr} (h : decode w = some i) (s : State) :
    s.issue w = exec i s := by
  unfold State.issue
  rw [h]

theorem State.issue_illegal {w : Word} (h : decode w = none) (s : State) :
    s.issue w = .next s.illegalCommand := by
  unfold State.issue
  rw [h]

/-- A host read of a cell gives its value, or stops at a cell that nothing has written (R53, U1). -/
theorem State.collect_fetch {w : Nat} (s : State) (wrap : BitVec w → ReadData) (mem : Memory w)
    (sp : Space) (i : Nat) :
    (∃ v, mem.read i = some v ∧ s.collect wrap (mem.fetch sp i) = .next (s.logRead (wrap v))) ∨
    (mem.read i = none ∧ s.collect wrap (mem.fetch sp i) = .fault (.unwrittenCell sp i)) := by
  cases h : mem.read i with
  | some v => exact .inl ⟨v, rfl, by rw [Memory.fetch_eq_ok.mpr h]; rfl⟩
  | none => exact .inr ⟨rfl, by rw [Memory.fetch_eq_error.mpr ⟨h, rfl⟩]; rfl⟩

/-- What a write to a register other than `CMD` leaves alone, whatever the register. -/
theorem State.writeReg_frame (s : State) (n : Nat) (d : Word) :
    (s.writeReg n d).status = s.status ∧ (s.writeReg n d).idx = s.idx ∧ (s.writeReg n d).acc = s.acc ∧
      (s.writeReg n d).sMem = s.sMem ∧ (s.writeReg n d).mMem = s.mMem ∧ (s.writeReg n d).fMem = s.fMem ∧
      (s.writeReg n d).script = s.script ∧ (s.writeReg n d).reads = s.reads ∧
      (s.writeReg n d).draws = s.draws := by
  unfold State.writeReg
  split <;> exact ⟨rfl, rfl, rfl, rfl, rfl, rfl, rfl, rfl, rfl⟩

/-! No action rewrites the host's script. -/

theorem State.writeReg_script (s : State) (n : Nat) (d : Word) : (s.writeReg n d).script = s.script :=
  (s.writeReg_frame n d).2.2.2.2.2.2.1

theorem exec_script {i : Instr} {s t : State} (h : exec i s = .next t) : t.script = s.script := by
  rcases exec_next_cases h with ⟨-, rfl⟩ | ⟨-, rfl⟩ | ⟨-, -, rfl⟩ | ⟨_, -, -, -, rfl⟩ | ⟨_, -, -, rfl⟩ |
    ⟨_, -, -, rfl⟩ | ⟨-, -, rfl⟩ | ⟨-, -, -, rfl⟩ | ⟨_, _, -, -, -, -, -, rfl⟩ | ⟨_, -, -, -, rfl⟩ |
    ⟨_, -, -, -, rfl⟩ <;> rfl

theorem State.issue_script {s t : State} {w : Word} (h : s.issue w = .next t) : t.script = s.script := by
  cases hd : decode w with
  | some i => rw [State.issue_legal hd] at h; exact exec_script h
  | none => rw [State.issue_illegal hd] at h; cases h; rfl

theorem State.collect_script {s t : State} {w : Nat} {wrap : BitVec w → ReadData} {cell : Except Fault (BitVec w)}
    (h : s.collect wrap cell = .next t) : t.script = s.script := by
  cases cell with
  | ok v => cases h; rfl
  | error r => cases h

theorem State.abandoned_script (s : State) (i : Instr) (t : State) : (s.abandoned i t).script = s.script := by
  unfold State.abandoned
  split
  · cases i <;> rfl
  · rfl

theorem State.abandon_script {s t : State} {w : Word} (h : s.abandon w = .next t) : t.script = s.script := by
  unfold State.abandon at h
  split at h
  · cases h; rfl
  · split at h <;> cases h
    exact State.abandoned_script _ _ _

/-- A host action that has a next state leaves the rest of the script to be performed (R72). -/
theorem State.hostAction_script {s t : State} {a : HostAction} (h : s.hostAction a = .next t) :
    t.script = s.script := by
  cases hb : s.status.busy with
  | true =>
    rw [State.hostAction_busy hb] at h
    cases a with
    | rd n =>
      unfold State.busyAction at h
      dsimp only at h
      split at h <;> cases h
      rfl
    | wr _ _ | ws _ _ | rs _ | wm _ _ | rm _ | wf _ _ | rf _ | reset | abandon _ => cases h
  | false =>
    rw [State.hostAction_idle hb] at h
    cases a with
    | wr n d =>
      by_cases hn : n = 0
      · subst hn; exact State.issue_script h
      · rw [State.idleAction_wr s hn] at h; cases h; exact s.writeReg_script n d
    | rd _ | ws _ _ | wm _ _ | wf _ _ | reset => cases h; rfl
    | rs _ | rm _ | rf _ => exact State.collect_script h
    | abandon w => exact State.abandon_script h

/-! Abandoned commands (R161). -/

@[simp] theorem length_drawn {w : Nat} (free : Nat → BitVec w) (k n : Nat) :
    (drawn free k n).length = n := by simp [drawn]

theorem read_drawSample (written : Memory 16) (b : Bit) (old : Memory 16) (x y : Nat) :
    (drawSample written b old x).read y = old.read y ∨
      y = x ∧ (drawSample written b old x).read y = written.read y := by
  unfold drawSample
  cases hr : written.read x with
  | none => exact .inl rfl
  | some v =>
    dsimp only
    split
    · by_cases hy : y = x
      · exact .inr ⟨hy, by rw [hy, Memory.read_write_self, hr]⟩
      · exact .inl (Memory.read_write_of_ne _ _ hy)
    · exact .inl rfl

theorem drawSample_wf {written : Memory 16} {b : Bit} {old : Memory 16} {x : Nat} (hw : old.wf)
    (hx : x < Config.cellCount) : (drawSample written b old x).wf := by
  unfold drawSample
  split
  · split
    · exact Memory.write_wf hw hx _
    · exact hw
  · exact hw

/-- Each cell that an abandoned `EMBED` may have written holds its old pattern or the one `EMBED` would
have written; every other cell is as before. -/
theorem read_drawSamples (stride : Nat) (written : Memory 16) (k : Nat) (old : Memory 16) (i n x : Nat) :
    (drawSamples stride written k old i n).read x = old.read x ∨
      ∃ j, j < n ∧ x = (i + j) * stride ∧ (drawSamples stride written k old i n).read x = written.read x := by
  induction n generalizing old i with
  | zero => exact .inl rfl
  | succ n ih =>
    rw [drawSamples]
    rcases ih (drawSample written (Config.freeBit (k + i)) old (i * stride)) (i + 1) with h | ⟨j, hj, hx, h⟩
    · rw [h]
      rcases read_drawSample written (Config.freeBit (k + i)) old (i * stride) x with h' | ⟨hx, h'⟩
      · exact .inl h'
      · exact .inr ⟨0, by omega, by simpa using hx, h'⟩
    · exact .inr ⟨j + 1, by omega, by rw [hx]; congr 1; omega, h⟩

theorem drawSamples_wf {stride : Nat} {written : Memory 16} {k : Nat} {old : Memory 16} {i n : Nat}
    (hw : old.wf) (hi : ∀ j, j < n → (i + j) * stride < Config.cellCount) :
    (drawSamples stride written k old i n).wf := by
  induction n generalizing old i with
  | zero => exact hw
  | succ n ih =>
    rw [drawSamples]
    refine ih (drawSample_wf hw (by simpa using hi 0 (by omega))) fun j hj => ?_
    have := hi (j + 1) (by omega)
    rwa [show i + (j + 1) = i + 1 + j by omega] at this

end Sys2Proof.Machine
end

