-- ==== Sys2Proof/Tests/Slice0.lean ====
section
/-!
SUPPORT. Tests whose expected results come from spec/95_test_vectors.md (T1 to T54, the decode table) and
the rules' own examples, and the witnesses: for every statement with hypotheses, concrete states and operands
that meet them all, at the boundary values of its clauses.
-/

namespace Sys2Proof.Tests

set_option Elab.async false

open Sys2Proof.Machine

/-! ## Helpers -/

/-- A small state: the four counts, and cells 0, 1, ... of the three spaces. -/
def st (chans slen mlen flen : Word) (s : List Sample) (m : List Byte) (f : List Bit) : State :=
  { State.reset with
    chans := chans, slen := slen, mlen := mlen, flen := flen
    sMem := Memory.writeFrom [] 0 s, mMem := Memory.writeFrom [] 0 m, fMem := Memory.writeFrom [] 0 f }

/-- The bits of a numeral of a table, first bit leftmost. -/
def bitsOf (w : Nat) (v : BitVec w) : List Bit :=
  (List.range w).map fun k => v.extractLsb' (w - 1 - k) 1

/-- A state whose frame is given. -/
def stF (flen : Word) (f : List Bit) : State := st 1#32 0#32 0#32 flen [] [] f

/-- A state whose message is given. -/
def stM (mlen : Word) (m : List Byte) : State := st 1#32 0#32 mlen 0#32 [] m []

/-- A state whose samples and message are given. -/
def stS (chans slen mlen : Word) (s : List Sample) (m : List Byte) : State :=
  st chans slen mlen 0#32 s m []

/-- The host's next action. -/
def doing (s : State) (a : HostAction) : State := { s with script := [a] }

/-- A next state that satisfies `p`. -/
def nexts (o : Host.Outcome State Fault Refusal) (p : State → Bool) : Bool :=
  match o with
  | .next t => p t
  | .fault _ => false
  | .refused _ => false

/-- A step's fault. -/
def faultsAt (o : Host.Outcome State Fault Refusal) (space : Space) (index : Nat) : Bool :=
  match o with
  | .next _ => false
  | .fault r => r == .unwrittenCell space index
  | .refused _ => false

/-- The cells 0 to n-1 of a space. -/
def cells {w : Nat} (mem : Memory w) (n : Nat) : List (Option (BitVec w)) := (List.range n).map mem.read

/-! ## Well-formedness: terms the check refuses, and terms it takes -/

theorem test_wellFormed_refuses_wr_of_register_9 : HostAction.wellFormed (.wr 9 0#32) = false := by decide
theorem test_wellFormed_refuses_rd_of_register_9 : HostAction.wellFormed (.rd 9) = false := by decide
theorem test_wellFormed_takes_register_8 :
    HostAction.wellFormed (.rd 8) = true ∧ HostAction.wellFormed (.wr 8 0#32) = true := by decide
theorem test_scriptWellFormed_refuses_one_bad_action :
    scriptWellFormed [.ws 0#32 1#16, .wr 5 1#32, .rd 100] = false := by decide
theorem test_scriptWellFormed_takes_msg : scriptWellFormed (scriptMsg [0x48#8, 0x69#8]) = true := by decide
theorem test_wellFormed_takes_every_command :
    ∀ i ∈ [Instr.encf, .decf, .getlsb, .setlsb, .embed, .extract], i.wellFormed = true := by decide

/-! ## Decoding: the words of 30_encoding.md R62, bit 31 first, and the illegal words of section 2.6 -/

theorem test_decode_encf : decode 0b00000000000000000000000000000001#32 = some .encf := by decide
theorem test_decode_decf : decode 0b00000000000000000000000000000010#32 = some .decf := by decide
theorem test_decode_getlsb : decode 0b00000000000000000000000000000011#32 = some .getlsb := by decide
theorem test_decode_setlsb : decode 0b00000000000000000000000000000100#32 = some .setlsb := by decide
theorem test_decode_embed : decode 0b00000000000000000000000000000101#32 = some .embed := by decide
theorem test_decode_extract : decode 0b00000000000000000000000000000110#32 = some .extract := by decide
theorem test_decode_illegal_words :
    [0x00000000#32, 0x00000007#32, 0x000000FF#32, 0x00000105#32, 0x80000003#32, 0xFFFFFFFF#32].map decode =
      List.replicate 6 none := by decide
/-- The rows of spec/opcode_table.json are 32 bits long. -/
theorem test_decodeTableWord_rows :
    [1, 2, 3, 4, 5, 6, 7].map (decodeTableWord 32) =
      [some .encf, some .decf, some .getlsb, some .setlsb, some .embed, some .extract, none] := by decide +kernel

/-! ## A placed word runs as the first command after reset (10_state.md R29 gives the inputs) -/

/-- `MLEN = 0`: the empty frame (T10). -/
theorem test_first_encf : nexts (step (State.reset.withFetchWord 32 1)) (fun t =>
    t.status.word == 0x00000002#32 && t.flen == 16#32 && cells t.fMem 17 == List.replicate 16 (some 0#1) ++ [none])
    = true := by decide +kernel
/-- `FLEN = 0` (T29), `SLEN = 0` (T39, T52). -/
theorem test_first_commands_of_no_operands :
    [2, 3, 4, 5, 6].map (fun w => nexts (step (State.reset.withFetchWord 32 w)) fun t =>
      (t.idx == 0#32) && t.status.word ==
        (if w = 2 then 0x00000252#32 else if w = 5 then 0x00000012#32 else if w = 6 then 0x00000222#32
         else 0x00000002#32)) = [true, true, true, true, true] := by decide +kernel

/-! ## GETLSB, SETLSB: T1, T2 -/

/-- T1: the pattern, `get_lsb`, `set_lsb` with 0 and with 1. -/
theorem test_accessor_table :
    ∀ r ∈ [((-32768 : Int), 0x8000#16, 0#1, (-32768 : Int), (-32767 : Int)),
           (-12345, 0xCFC7#16, 1#1, -12346, -12345), (-2, 0xFFFE#16, 0#1, -2, -1),
           (-1, 0xFFFF#16, 1#1, -2, -1), (0, 0x0000#16, 0#1, 0, 1), (12345, 0x3039#16, 1#1, 12344, 12345),
           (32767, 0x7FFF#16, 1#1, 32766, 32767)],
      uint16 r.1 = r.2.1 ∧ getLsbSigned r.1 = r.2.2.1 ∧ setLsbSigned r.1 0#1 = r.2.2.2.1 ∧
        setLsbSigned r.1 1#1 = r.2.2.2.2 := by decide
theorem test_getlsb_of_minus_1 : nexts (exec .getlsb { State.reset with samp := 0xFFFF#16 }) (fun t =>
    t.bitv == 1#1 && t.samp == 0xFFFF#16 && t.status.word == 0x00000002#32 && t.idx == 0#32) = true := by decide
theorem test_setlsb_of_minus_1 : nexts (exec .setlsb { State.reset with samp := 0xFFFF#16 }) (fun t =>
    t.samp == 0xFFFE#16 && t.bitv == 0#1 && t.status.word == 0x00000002#32) = true := by decide
theorem test_setlsb_of_minus_32768 :
    nexts (exec .setlsb { State.reset with samp := 0x8000#16, bitv := 1#1 }) (fun t => t.samp == 0x8001#16)
    = true := by decide
/-- T2. -/
theorem test_port_width : nexts (step (doing State.reset (.wr 2 0xABCD8001#32))) (fun t =>
    t.samp == 0x8001#16 && t.readReg 2 == 0x00008001#32) = true ∧
    nexts (step (doing State.reset (.wr 3 0xFFFFFFFE#32))) (fun t => t.readReg 3 == 0#32) = true ∧
    nexts (step (doing State.reset (.wr 3 0x00000003#32))) (fun t => t.readReg 3 == 1#32) = true := by decide

/-! ## ENCF: T15, T16, T17 -/

theorem test_encf_bit_order : nexts (exec .encf (stM 2#32 [0x80#8, 0x01#8])) (fun t =>
    cells t.fMem 32 == (bitsOf 32 0b10000000000000010000000000000000#32).map some && t.flen == 32#32 &&
    t.idx == 32#32 && t.status.word == 0x00000002#32) = true := by decide +kernel
theorem test_encf_frame_too_long :
    nexts (exec .encf { State.reset with mlen := 536870910#32, flen := 5#32 }) (fun t =>
      t.status.word == 0x00000012#32 && t.idx == 0#32 && t.flen == 5#32 && t.fMem == []) = true := by decide

/-! ## DECF: T22, T26 -/

theorem test_decf_early : nexts (exec .decf (stF 24#32 (bitsOf 24 0b010010000000000000000000#24))) (fun t =>
    t.status.word == 0x00000102#32 && t.idx == 21#32 && t.mlen == 1#32 && cells t.mMem 2 == [some 0x48#8, none])
    = true := by decide +kernel
theorem test_decf_one_bit_short :
    nexts (exec .decf (stF 31#32 (bitsOf 31 0b0100100001101001000000000000000#31))) (fun t =>
      t.status.word == 0x00000252#32 && t.idx == 31#32 && t.mlen == 0#32 && t.mMem == []) = true := by
  decide +kernel

/-! ## EMBED: T39a, T38 -/

theorem test_embed_stride_4 : nexts (exec .embed (stS 4#32 64#32 0#32 (List.replicate 64 0xFFFF#16) [])) (fun t =>
    t.status.word == 0x00000002#32 && t.idx == 16#32 && cells t.sMem 64 ==
      (List.range 64).map (fun k => some (if k % 4 = 0 then 0xFFFE#16 else 0xFFFF#16))) = true := by
  decide +kernel
theorem test_embed_priority : nexts (exec .embed (st 3#32 32#32 100#32 0#32 [] [] [])) (fun t =>
    t.status.word == 0x00000032#32 && t.idx == 0#32) = true := by decide

/-! ## EXTRACT: T50, T48 -/

theorem test_extract_even_channel :
    nexts (exec .extract (stS 2#32 40#32 0#32 ((List.range 40).map fun k => BitVec.ofNat 16 (k % 2)) [])) (fun t =>
      t.status.word == 0x00000102#32 && t.idx == 16#32 && t.mlen == 0#32) = true := by decide +kernel
theorem test_extract_15_frames :
    nexts (exec .extract (stS 2#32 30#32 7#32 (List.replicate 30 0#16) [])) (fun t =>
      t.status.word == 0x00000222#32 && t.idx == 15#32 && t.mlen == 7#32) = true := by decide +kernel

/-! ## Illegal words, unwritten cells, scripts -/

theorem test_illegal_word : nexts (step (State.reset.withFetchWord 32 0x105)) (fun t =>
    t.status.word == 0x00000042#32 && t.idx == 0#32) = true := by decide
/-- U1: `ENCF` of a message that nobody wrote. -/
theorem test_encf_unwritten : faultsAt (exec .encf { State.reset with mlen := 1#32 }) .m 0 = true := by decide
/-- The parts of P4's script and of its encoding (R73, R74): the read of the poll is no bus write. -/
theorem test_script_encoding :
    scriptEncoding (scriptMsg [0x48#8] ++ scriptCommand .encf ++ [.rd 7]) =
      [.wm 0#32 0x48#8, .wr 6 1#32, .wr 0 0x00000001#32] := by decide
theorem test_script_samples :
    scriptSamples [-1, 10] = [.ws 0#32 0xFFFF#16, .ws 1#32 0x000A#16, .wr 5 2#32] := by decide

/-! ## Concrete states the witnesses share -/

/-- Message `48`, 24 samples of value 1, `CHANS = 1`: T30. -/
def sEmbed : State := stS 1#32 24#32 1#32 (List.replicate 24 1#16) [0x48#8]

/-- 48 samples, two channels, message `48`: T32. -/
def sStereo : State := stS 2#32 48#32 1#32 (List.replicate 48 1#16) [0x48#8]

/-- 17 samples, the first 1 and then 16 zeros. -/
def sFound : State := stS 1#32 17#32 0#32 (1#16 :: List.replicate 16 0#16) []

/-- The frame of `48`: T22. -/
def sFrame : State := stF 24#32 (bitsOf 24 0b010010000000000000000000#24)

/-- The message `41 00 00 42`: T16. -/
def sNulls : State := stM 4#32 [0x41#8, 0x00#8, 0x00#8, 0x42#8]

/-- The 21 bits that `DECF` consumes of `sFrame`: T22. -/
def bits21 : List Bit := bitsOf 21 0b010010000000000000000#21

theorem bits21_ends : EndsAtFirstTerminator bits21 :=
  ⟨by decide, fun k h1 h2 => by
      change 21 - 16 ≤ k at h1
      change k < 21 at h2
      interval_cases k <;> rfl,
    fun n h1 h2 => ⟨4, by change n < 21 at h2; omega, by omega, rfl⟩⟩

theorem zeros16_end : EndsAtFirstTerminator (List.replicate 16 0#1) :=
  ⟨by decide, fun k _ h2 => by
      change k < 16 at h2
      interval_cases k <;> rfl,
    fun n h1 h2 => by change n < 16 at h2; omega⟩

theorem one_then_zeros_end : EndsAtFirstTerminator (1#1 :: List.replicate 16 0#1) :=
  ⟨by decide, fun k h1 h2 => by
      change 17 - 16 ≤ k at h1
      change k < 17 at h2
      interval_cases k <;> rfl,
    fun n h1 h2 => ⟨0, by change n < 17 at h2; omega, by omega, rfl⟩⟩

theorem zeros15_hold_none : HoldsNoTerminator (List.replicate 15 0#1) :=
  fun n h1 h2 => by change n ≤ 15 at h2; omega

theorem ones17_hold_none : HoldsNoTerminator (List.replicate 17 1#1) :=
  fun n h1 h2 => ⟨n - 1, by omega, by omega, by
    change n ≤ 17 at h2
    interval_cases n <;> rfl⟩

/-! ## Witnesses: encoding and the step -/

theorem witness_DecodeByZeroAndOpc :
    (0x00000100#32).extractLsb' 8 24 ≠ 0#24 ∧
    [0x00#32, 0x01#32, 0x02#32, 0x03#32, 0x04#32, 0x05#32, 0x06#32, 0x07#32, 0xFF#32].map
      (fun w => w.extractLsb' 8 24) = List.replicate 9 0#24 ∧
    ((0x00#32).extractLsb' 0 8).toNat = 0 ∧ 7 ≤ ((0x07#32).extractLsb' 0 8).toNat ∧
    7 ≤ ((0xFF#32).extractLsb' 0 8).toNat := by decide +kernel

theorem witness_DecodeInvertsEncode :
    Instr.wellFormed .embed = true ∧ decode 0x00000006#32 = some .extract := by decide +kernel

theorem witness_StepRunsDecodedCommand : ∃ (s : State) (w : Word) (rest : List HostAction) (i : Instr),
    s.script = .wr 0 w :: rest ∧ s.status.busy = false ∧ decode w = some i :=
  ⟨State.reset.withFetchWord 32 5, 5#32, [], .embed, rfl, rfl, by decide +kernel⟩

theorem witness_IllegalWordOnlyReports : ∃ (s : State) (w : Word) (rest : List HostAction),
    s.script = .wr 0 w :: rest ∧ s.status.busy = false ∧ decode w = none :=
  ⟨State.reset.withFetchWord 32 7, 7#32, [], rfl, rfl, by decide +kernel⟩

theorem witness_FinishedScriptStaysIdle : State.reset.script = [] ∧ State.reset.status.busy = false := ⟨rfl, rfl⟩

theorem witness_IssuedCommandLeavesIdleAndDone : ∃ (s t : State) (w : Word) (rest : List HostAction),
    s.script = .wr 0 w :: rest ∧ s.status.busy = false ∧ step s = .next t :=
  ⟨{ sEmbed with script := [.wr 0 5#32, .rd 1] }, _, 5#32, [.rd 1], rfl, rfl, rfl⟩

/-! ## Witnesses: the accessor -/

/-- `GetLsbIsBitZero`, `SetLsbReplacesBitZero`, `AccessorLaws`: both ends of the range. -/
theorem witness_accessor_range :
    (-32768 : Int) ≤ -32768 ∧ (-32768 : Int) ≤ 32767 ∧ (-32768 : Int) ≤ 32767 ∧ (32767 : Int) ≤ 32767 := by
  decide

/-! ## Witnesses: the frame codec -/

theorem witness_EncfWritesTheFrame : ∃ s : State, s.mlen = 1#32 ∧ s.mlen.toNat ≤ 536870909 ∧
    ∀ j, j < s.mlen.toNat → ∃ b, s.mMem.read j = some b :=
  ⟨stM 1#32 [0x48#8], rfl, by decide +kernel, fun j hj => by
    change j < 1 at hj
    interval_cases j
    exact ⟨0x48#8, rfl⟩⟩

theorem witness_EncfWritesTheFrame_empty : State.reset.mlen.toNat ≤ 536870909 ∧
    ∀ j, j < State.reset.mlen.toNat → ∃ b, State.reset.mMem.read j = some b :=
  ⟨by decide +kernel, fun j hj => by change j < 0 at hj; omega⟩

theorem witness_EncfFailsWhenFrameTooLong :
    536870910 ≤ ({ State.reset with mlen := 536870910#32 } : State).mlen.toNat ∧
    ({ State.reset with mlen := 536870909#32 } : State).mlen.toNat ≤ 536870909 ∧
    ∃ s t : State, s.mlen.toNat ≤ 536870909 ∧ exec .encf s = .next t :=
  ⟨by decide +kernel, by decide +kernel, stM 1#32 [0x48#8], _, by decide +kernel, rfl⟩

theorem witness_DecfDeliversMessage : ∃ (s : State) (bits : List Bit),
    (∀ k, k < bits.length → s.fMem.read k = bits[k]?) ∧ bits.length ≤ s.flen.toNat ∧
    EndsAtFirstTerminator bits :=
  ⟨sFrame, bits21, fun k hk => by
    change k < 21 at hk
    interval_cases k <;> rfl, by decide +kernel, bits21_ends⟩

/-- The terminator on the last permitted bit. -/
theorem witness_DecfDeliversMessage_last_bit : ∃ (s : State) (bits : List Bit),
    (∀ k, k < bits.length → s.fMem.read k = bits[k]?) ∧ bits.length = s.flen.toNat ∧
    EndsAtFirstTerminator bits :=
  ⟨stF 16#32 (List.replicate 16 0#1), List.replicate 16 0#1, fun k hk => by
    change k < 16 at hk
    interval_cases k <;> rfl, by decide +kernel, zeros16_end⟩

theorem witness_DecfIncomplete : ∃ (s : State) (bits : List Bit),
    bits.length = s.flen.toNat ∧ (∀ k, k < bits.length → s.fMem.read k = bits[k]?) ∧ HoldsNoTerminator bits :=
  ⟨stF 17#32 (List.replicate 17 1#1), List.replicate 17 1#1, by decide +kernel, fun k hk => by
    change k < 17 at hk
    interval_cases k <;> rfl, ones17_hold_none⟩

/-- T27: 15 zeros. -/
theorem witness_DecfIncomplete_15 : ∃ (s : State) (bits : List Bit),
    bits.length = s.flen.toNat ∧ (∀ k, k < bits.length → s.fMem.read k = bits[k]?) ∧ HoldsNoTerminator bits :=
  ⟨stF 15#32 (List.replicate 15 0#1), List.replicate 15 0#1, by decide +kernel, fun k hk => by
    change k < 15 at hk
    interval_cases k <;> rfl, zeros15_hold_none⟩

theorem witness_DecfIncompleteIffNoRun : ∃ s t u v : State,
    (exec .decf s = .next t ∧ t.status.err = .ok) ∧ exec .decf u = .next v ∧ v.status.err = .incomplete :=
  ⟨sFrame, _, stF 15#32 (List.replicate 15 0#1), _, ⟨rfl, by decide +kernel⟩, rfl, by decide +kernel⟩

/-- With a message, so that every clause's premise holds. -/
theorem witness_FoundMessageFacts : ∃ s t : State, exec .decf s = .next t ∧ t.status.err = .ok ∧
    16 < t.idx.toNat ∧ 0 < t.mlen.toNat :=
  ⟨sFrame, _, rfl, by decide +kernel, by decide +kernel, by decide +kernel⟩

/-- T20: the empty message, `n = 16`. -/
theorem witness_FoundMessageFacts_empty : ∃ s t : State, exec .decf s = .next t ∧ t.status.err = .ok ∧
    t.idx.toNat = 16 ∧ t.mlen.toNat = 0 :=
  ⟨stF 16#32 (List.replicate 16 0#1), _, rfl, by decide +kernel, by decide +kernel, by decide +kernel⟩

/-- A message that comes back, and one that does not (T12, T16). -/
theorem witness_EncfDecfRoundTrip : ∃ s t s' t' u' : State,
    (exec .encf s = .next t ∧ t.status.err = .ok ∧ nexts (exec .decf t) (fun u => u.mlen == s.mlen) = true) ∧
    exec .encf s' = .next t' ∧ t'.status.err = .ok ∧ exec .decf t' = .next u' ∧ u'.mlen ≠ s'.mlen :=
  ⟨stM 2#32 [0x48#8, 0x69#8], _, sNulls, _, _, ⟨rfl, by decide +kernel, by decide +kernel⟩, rfl, by decide +kernel, rfl,
    by decide +kernel⟩

theorem witness_NullBytesTruncateMessage : ∃ (s t : State) (j : Nat), exec .encf s = .next t ∧
    t.status.err = .ok ∧ j + 1 < s.mlen.toNat ∧ s.mMem.read j = some 0#8 ∧ s.mMem.read (j + 1) = some 0#8 :=
  ⟨sNulls, _, 1, rfl, by decide +kernel, by decide +kernel, by decide +kernel, by decide +kernel⟩

/-- The three cases of a step: a run of 16 zeros, the last permitted bit without one, neither. -/
theorem witness_DecoderStateMachine :
    (16 ≤ (List.replicate 15 0#1 ++ [0#1]).length ∧
      ∀ k, (List.replicate 15 0#1 ++ [0#1]).length - 16 ≤ k → k < (List.replicate 15 0#1 ++ [0#1]).length →
        (List.replicate 15 0#1 ++ [0#1])[k]? = some 0#1) ∧
    (¬ 16 ≤ ([] ++ [1#1] : List Bit).length ∧ ([] ++ [1#1] : List Bit).length = 1) ∧
    ¬ 16 ≤ ([] ++ [1#1] : List Bit).length ∧ ([] ++ [1#1] : List Bit).length ≠ 2 := by
  refine ⟨⟨by decide +kernel, fun k _ hk => ?_⟩, ⟨by decide +kernel, by decide +kernel⟩, by decide +kernel, by decide +kernel⟩
  change k < 16 at hk
  interval_cases k <;> rfl

/-- `r = 0` and `r = 5`, on the stream of T22. -/
theorem witness_TailPoliciesCompared :
    (16 ≤ 16 ∧ 16 ≤ bits21.length ∧ (16 - 16) % 8 = 0) ∧
    16 ≤ 21 ∧ 21 ≤ bits21.length ∧ (21 - 16) % 8 ≠ 0 := by decide +kernel

/-! ## Witnesses: EMBED and EXTRACT -/

/-- T36, T37, T39. -/
theorem witness_MalformedBufferRejected :
    (st 0#32 8#32 0#32 0#32 [] [] []).chans.toNat = 0 ∧
    (st 3#32 32#32 0#32 0#32 [] [] []).slen.toNat % (st 3#32 32#32 0#32 0#32 [] [] []).chans.toNat ≠ 0 ∧
    State.reset.slen.toNat = 0 ∧ 1 ≤ State.reset.chans.toNat := by decide +kernel

/-- T31. -/
theorem witness_EmbedCapacityExceeded : ∃ s : State, s.chans.toNat ≠ 0 ∧
    s.slen.toNat % s.chans.toNat = 0 ∧ s.slen.toNat / s.chans.toNat < 8 * s.mlen.toNat + 16 :=
  ⟨st 1#32 23#32 1#32 0#32 [] [] [], by decide +kernel, by decide +kernel, by decide +kernel⟩

/-- T32: the frame fits exactly, two channels. -/
theorem witness_EmbedWritesTheFrame : ∃ s : State, s.chans.toNat ≠ 0 ∧ s.slen.toNat % s.chans.toNat = 0 ∧
    8 * s.mlen.toNat + 16 = s.slen.toNat / s.chans.toNat ∧
    (∀ j, j < s.mlen.toNat → ∃ b, s.mMem.read j = some b) ∧
    ∀ i, i < 8 * s.mlen.toNat + 16 → ∃ v, s.sMem.read (i * s.chans.toNat) = some v :=
  ⟨sStereo, by decide +kernel, by decide +kernel, by decide +kernel, fun j hj => by
    change j < 1 at hj
    interval_cases j
    exact ⟨0x48#8, rfl⟩, fun i hi => by
    change i < 24 at hi
    refine ⟨1#16, ?_⟩
    interval_cases i <;> rfl⟩

/-- For `EmbedPostcondition`, `EmbedIsIdempotent`, `EmbedCountsDoNotOverflow`. -/
theorem witness_EmbedPostcondition : ∃ s t : State, exec .embed s = .next t ∧ t.status.err = .ok :=
  ⟨sStereo, _, rfl, by decide +kernel⟩

theorem witness_EmbedIsIdempotent : ∃ s t : State, exec .embed s = .next t ∧ t.status.err = .ok :=
  ⟨sEmbed, _, rfl, by decide +kernel⟩

theorem witness_EmbedCountsDoNotOverflow : ∃ s t : State, exec .embed s = .next t ∧ t.status.err = .ok :=
  ⟨sStereo, _, rfl, by decide +kernel⟩

theorem witness_ExtractDeliversMessage : ∃ (s : State) (bits : List Bit), s.chans.toNat ≠ 0 ∧
    s.slen.toNat % s.chans.toNat = 0 ∧ bits.length ≤ s.slen.toNat / s.chans.toNat ∧
    (∀ i, i < bits.length → ∃ v, s.sMem.read (i * s.chans.toNat) = some v ∧
      bits[i]? = some (v.extractLsb' 0 1)) ∧ EndsAtFirstTerminator bits :=
  ⟨sFound, 1#1 :: List.replicate 16 0#1, by decide +kernel, by decide +kernel, by decide +kernel, fun i hi => by
    change i < 17 at hi
    refine ⟨if i = 0 then 1#16 else 0#16, ?_⟩
    interval_cases i <;> decide +kernel, one_then_zeros_end⟩

/-- T45. -/
theorem witness_ExtractNoWatermark : ∃ (s : State) (bits : List Bit), s.chans.toNat ≠ 0 ∧
    s.slen.toNat % s.chans.toNat = 0 ∧ bits.length = s.slen.toNat / s.chans.toNat ∧
    (∀ i, i < bits.length → ∃ v, s.sMem.read (i * s.chans.toNat) = some v ∧
      bits[i]? = some (v.extractLsb' 0 1)) ∧ HoldsNoTerminator bits :=
  ⟨stS 1#32 15#32 0#32 (List.replicate 15 0#16) [], List.replicate 15 0#1, by decide +kernel, by decide +kernel, by decide +kernel, fun i hi => by
    change i < 15 at hi
    refine ⟨0#16, ?_⟩
    interval_cases i <;> decide +kernel, zeros15_hold_none⟩

/-- Both outcomes: a run of 16 zeros, and none. -/
theorem witness_AbsenceDetection : ∃ s t s' t' : State,
    (exec .extract s = .next t ∧ s.chans.toNat ≠ 0 ∧ s.slen.toNat % s.chans.toNat = 0 ∧ t.status.err = .ok) ∧
    exec .extract s' = .next t' ∧ s'.chans.toNat ≠ 0 ∧ s'.slen.toNat % s'.chans.toNat = 0 ∧
      t'.status.err = .noWatermarkFound :=
  ⟨sFound, _, stS 1#32 15#32 0#32 (List.replicate 15 0#16) [], _, ⟨rfl, by decide +kernel, by decide +kernel, by decide +kernel⟩, rfl,
    by decide +kernel, by decide +kernel, by decide +kernel⟩

theorem witness_EmbedExtractRoundTrip : ∃ s t : State, exec .embed s = .next t ∧ t.status.err = .ok ∧
    ∀ j, j < s.mlen.toNat → s.mMem.read j ≠ some 0#8 :=
  ⟨sStereo, _, rfl, by decide +kernel, fun j hj => by
    change j < 1 at hj
    interval_cases j
    decide⟩

/-! ## Witnesses: whole-machine rules -/

/-- Each of the three values of `DSTATE`. -/
theorem witness_DstateAtCompletion : ∃ (i j k : Instr) (s t t' u u' : State),
    (exec i s = .next t ∧ t.status.dstate = .scanning) ∧ (exec j s = .next t' ∧ t'.status.dstate = .exhausted) ∧
    exec k u = .next u' ∧ u'.status.dstate = .found :=
  ⟨.getlsb, .extract, .extract, State.reset, _, _, sFound, _, ⟨rfl, rfl⟩, ⟨rfl, rfl⟩, rfl, by decide +kernel⟩

/-- A failure without a scan, by exhaustion of each kind, and an illegal word. -/
theorem witness_FailedCommandIsPrecise :
    [0x00000000#32, 0x00000002#32, 0x00000005#32, 0x00000006#32].all (fun w =>
      (State.reset.withCommand w).script == [.wr 0 w] && !(State.reset.withCommand w).status.busy &&
      nexts (step (State.reset.withCommand w)) (fun t => t.status.err != .ok)) = true := by decide +kernel

theorem witness_ResultCodesWithoutScan : ∃ s t t' u u' : State,
    exec .embed s = .next t ∧ exec .encf s = .next t' ∧ exec .getlsb s = .next u ∧ exec .setlsb s = .next u' :=
  ⟨sEmbed, _, _, _, _, rfl, rfl, rfl, rfl⟩

theorem witness_IdxAtCompletion :
    (nexts (exec .encf sEmbed) (fun t => t.status.err == .ok) &&
      nexts (exec .embed sEmbed) (fun t => t.status.err == .ok) &&
      nexts (exec .decf sFrame) (fun t => t.status.err == .ok) &&
      nexts (exec .extract sFound) (fun t => t.status.err == .ok) &&
      nexts (exec .decf State.reset) (fun t => t.status.err == .incomplete) &&
      nexts (exec .extract State.reset) (fun t => t.status.err == .noWatermarkFound) &&
      nexts (exec .getlsb State.reset) (fun _ => true) && nexts (exec .setlsb State.reset) (fun _ => true) &&
      nexts (exec .embed State.reset) (fun t => t.status.err == .capacityExceeded) &&
      nexts (exec .extract { State.reset with chans := 0#32 }) (fun t => t.status.err == .malformedBuffer))
    = true := by decide +kernel

theorem witness_FailureLeavesNothingToClear : ∃ (i : Instr) (s t : State),
    exec i s = .next t ∧ t.status.err ≠ .ok := ⟨.embed, State.reset, _, rfl, by decide +kernel⟩

/-- A state that differs from `sStereo` outside what `ENCF` and `EMBED` read. -/
theorem witness_EncodersReadOnlyTheirInputs : ∃ s s' t u : State, s' ≠ s ∧ s'.mlen = s.mlen ∧
    (∀ j, j < s.mlen.toNat → s'.mMem.read j = s.mMem.read j) ∧ exec .encf s = .next t ∧
    exec .embed s = .next u ∧ s'.chans = s.chans ∧ s'.slen = s.slen ∧
    ∀ i, i < 8 * s.mlen.toNat + 16 →
      s'.sMem.read (i * s.chans.toNat) = s.sMem.read (i * s.chans.toNat) :=
  ⟨sStereo, { sStereo with samp := 5#16, sMem := sStereo.sMem.write 1 9#16 }, _, _, by decide +kernel, rfl,
    fun _ _ => rfl, rfl, rfl, rfl, rfl, by decide +kernel⟩

/-- States that differ from `sFrame` and `sFound` beyond the terminator, and in bits 15 to 1. -/
theorem witness_DecodersReadOnlyTheirInputs :
    (∃ s s' t : State, s' ≠ s ∧ exec .decf s = .next t ∧ s'.flen = s.flen ∧
      ∀ k, k < t.idx.toNat → s'.fMem.read k = s.fMem.read k) ∧
    ∃ s s' t : State, s' ≠ s ∧ exec .extract s = .next t ∧ s'.chans = s.chans ∧ s'.slen = s.slen ∧
      ∀ i, i < t.idx.toNat → (s'.sMem.read (i * s.chans.toNat)).map (fun v => v.extractLsb' 0 1) =
        (s.sMem.read (i * s.chans.toNat)).map (fun v => v.extractLsb' 0 1) :=
  ⟨⟨sFrame, { sFrame with fMem := sFrame.fMem.write 23 1#1 }, _, by decide +kernel, rfl, rfl, by decide +kernel⟩,
    sFound, { sFound with sMem := sFound.sMem.write 3 0x7000#16 }, _, by decide +kernel, rfl, rfl, rfl, by decide +kernel⟩

/-- Each command has a next state, for `CommandWriteSets`. -/
theorem witness_CommandWriteSets :
    (nexts (exec .encf sStereo) (fun _ => true) && nexts (exec .decf sFrame) (fun _ => true) &&
      nexts (exec .getlsb sStereo) (fun _ => true) && nexts (exec .setlsb sStereo) (fun _ => true) &&
      nexts (exec .embed sStereo) (fun _ => true) && nexts (exec .extract sFound) (fun _ => true)) = true := by
  decide +kernel

theorem witness_UntouchedCells :
    (∃ (s t : State) (x : Nat) (v v' : Sample), exec .embed s = .next t ∧ s.sMem.read x = some v ∧
      t.sMem.read x = some v' ∧ v ≠ v') ∧
    (∃ s t : State, exec .extract s = .next t) ∧ (∃ s t : State, exec .decf s = .next t) ∧
    ∃ (i : Instr) (s t : State), exec i s = .next t ∧ t.status.err ≠ .ok :=
  ⟨⟨sStereo, _, 0, 1#16, 0#16, rfl, rfl, by decide +kernel, by decide +kernel⟩, ⟨sFound, _, rfl⟩, ⟨sFrame, _, rfl⟩,
    .embed, State.reset, _, rfl, by decide +kernel⟩

/-! ## Witnesses: reset and the ports -/

theorem witness_ResetInputRestoresRegisters : ∃ (s : State) (rest : List HostAction),
    s.script = .reset :: rest ∧ s.status.busy = false := ⟨doing sStereo .reset, [], rfl, rfl⟩

/-- Abandoned: each command that writes cells, and an illegal word. -/
theorem witness_ResetDuringCommand :
    nexts (step (doing sStereo (.abandon 5#32))) (fun _ => true) = true ∧
    nexts (step (doing sStereo (.abandon 1#32))) (fun _ => true) = true ∧
    nexts (step (doing sFrame (.abandon 2#32))) (fun _ => true) = true ∧
    nexts (step (doing sFound (.abandon 6#32))) (fun _ => true) = true ∧
    nexts (step (doing sFound (.abandon 9#32))) (fun _ => true) = true :=
  ⟨by decide +kernel, by decide +kernel, by decide +kernel, by decide +kernel, by decide +kernel⟩

theorem witness_NarrowRegistersOnThePort : ∃ s : State, s.status.busy = false ∧
    (doing s (.wr 2 0xABCD8001#32)).script = .wr 2 0xABCD8001#32 :: [] ∧
    (doing s (.wr 3 0xFFFFFFFE#32)).script = .wr 3 0xFFFFFFFE#32 :: [] ∧
    (doing s (.rd 2)).script = .rd 2 :: [] ∧ (doing s (.rd 3)).script = .rd 3 :: [] :=
  ⟨State.reset, rfl, rfl, rfl, rfl, rfl⟩

theorem witness_ReservedNumbersAndFields : ∃ (s : State) (n : Nat), n = 9 ∧ 9 ≤ n ∧ s.status.busy = false ∧
    (doing s (.wr n 5#32)).script = .wr n 5#32 :: [] ∧ (doing s (.rd n)).script = .rd n :: [] :=
  ⟨State.reset, 9, rfl, by decide +kernel, rfl, rfl, rfl⟩

theorem witness_RegisterPort : ∃ s : State, s.status.busy = false ∧
    (∀ n ∈ [4, 5, 6, 7, 1, 8], (doing s (.wr n 5#32)).script = .wr n 5#32 :: []) ∧
    ∀ n ∈ [0, 1, 4, 5, 6, 7, 8], (doing s (.rd n)).script = .rd n :: [] :=
  ⟨State.reset, rfl, by decide +kernel, by decide +kernel⟩

/-- The highest index of a space, and cells that hold a value. -/
theorem witness_CellPort : ∃ (s : State) (i : Word), i = 0xFFFFFFFF#32 ∧ s.status.busy = false ∧
    (doing s (.ws i 7#16)).script = .ws i 7#16 :: [] ∧ (doing s (.wm i 7#8)).script = .wm i 7#8 :: [] ∧
    (doing s (.wf i 1#1)).script = .wf i 1#1 :: [] ∧ s.sMem.read i.toNat = some 7#16 ∧
    s.mMem.read i.toNat = some 7#8 ∧ s.fMem.read i.toNat = some 1#1 :=
  ⟨{ State.reset with
      sMem := [(4294967295, 7#16)], mMem := [(4294967295, 7#8)], fMem := [(4294967295, 1#1)] },
    0xFFFFFFFF#32, rfl, rfl, rfl, rfl, rfl, rfl, rfl, rfl⟩

theorem witness_UnwrittenCellReadFaults : ∃ (s : State) (i : Word), s.status.busy = false ∧
    (doing s (.rs i)).script = .rs i :: [] ∧ (doing s (.rm i)).script = .rm i :: [] ∧
    (doing s (.rf i)).script = .rf i :: [] ∧ s.sMem.read i.toNat = none ∧ s.mMem.read i.toNat = none ∧
    s.fMem.read i.toNat = none :=
  ⟨State.reset, 0#32, rfl, rfl, rfl, rfl, rfl, rfl, rfl⟩

/-- Both clauses: a forbidden access, and a read of `STATUS`. -/
theorem witness_BusyHazard : ∃ s : State, s.status.busy = true ∧ (doing s (.wr 0 1#32)).script = .wr 0 1#32 :: [] ∧
    (HostAction.wr 0 1#32 ≠ .rd 1) ∧ (doing s (.rd 1)).script = .rd 1 :: [] :=
  ⟨{ State.reset with status := ⟨true, false, .ok, .scanning⟩ }, rfl, rfl, by decide +kernel, rfl⟩

/-! ## Witnesses: the invariant -/

theorem witness_StepKeepsInvariant : ∃ s t : State, s.Inv ∧ step s = .next t :=
  ⟨sStereo.withCommand 5#32, _, by
    refine ⟨by decide +kernel, by decide +kernel, by decide +kernel, rfl, by decide +kernel⟩, rfl⟩

/-! ## Witnesses: final states, and the round trip in general -/

/-- A final state, a state that is not final for its script, and one with `BUSY = 1` and no action left. -/
theorem witness_FinalStates : ∃ s s' u : State,
    (s.script = [] ∧ s.status.busy = false) ∧ s'.script ≠ [] ∧ u.script = [] ∧ u.status.busy = true :=
  ⟨State.reset, doing State.reset (.rd 1), { State.reset with status := ⟨true, false, .ok, .scanning⟩ },
    ⟨rfl, rfl⟩, nofun, rfl, rfl⟩

/-- T29f and T16 hidden in 48 samples: a message with a `0x00` byte that comes back, and one that does not. -/
theorem witness_EmbedExtractInGeneral : ∃ s t s' t' : State,
    (exec .embed s = .next t ∧ t.status.err = .ok ∧
      nexts (exec .extract t) (fun u => u.mlen == 2#32 && cells u.mMem 2 == [some 0x00#8, some 0x01#8]) = true) ∧
    exec .embed s' = .next t' ∧ t'.status.err = .ok ∧
      nexts (exec .extract t') (fun u => u.mlen == 1#32 && cells u.mMem 1 == [some 0x41#8]) = true :=
  ⟨stS 1#32 48#32 2#32 (List.replicate 48 1#16) [0x00#8, 0x01#8], _,
    stS 1#32 48#32 4#32 (List.replicate 48 1#16) [0x41#8, 0x00#8, 0x00#8, 0x42#8], _,
    ⟨rfl, by decide +kernel, by decide +kernel⟩, rfl, by decide +kernel, by decide +kernel⟩

end Sys2Proof.Tests
end

section
/-!
Proofs of the statements about the state, the register port and what every command reads and writes
(spec/10_state.md), and of the machine's invariant.
-/

namespace Sys2Proof.Machine

/-! ## What a command that succeeded has done -/

/-- `ENCF` succeeds only when the frame's length fits 32 bits and the message is written (R83, R86). -/
theorem exec_encf_next_ok {s t : State} (h : exec .encf s = .next t) (hok : t.status.err = .ok) :
    ∃ msg, s.required < 2 ^ 32 ∧ s.message = .ok msg ∧ t = s.encfDone msg := by
  rcases exec_encf_cases s with ⟨-, e⟩ | ⟨msg, hr, hm, e⟩ | ⟨r, -, -, e⟩ <;> rw [e] at h <;> cases h
  · cases hok
  · exact ⟨msg, by omega, hm, rfl⟩

/-- `EMBED` succeeds only in a well-formed buffer that holds the frame, with message and samples written
(R114). -/
theorem exec_embed_next_ok {s t : State} (h : exec .embed s = .next t) (hok : t.status.err = .ok) :
    ∃ msg mem, s.malformed = false ∧ s.required ≤ s.available ∧ s.message = .ok msg ∧
      embedBits s.chans.toNat s.sMem 0 (encodeFrame msg) = .ok mem ∧ t = s.embedDone mem := by
  rcases exec_embed_cases s with ⟨-, e⟩ | ⟨-, -, e⟩ | ⟨msg, mem, hb, hr, hm, he, e⟩ | ⟨r, -, -, -, e⟩ |
    ⟨r, msg, -, -, -, -, e⟩ <;> rw [e] at h <;> cases h
  · cases hok
  · cases hok
  · exact ⟨msg, mem, hb, hr, hm, he, rfl⟩

/-- `DECF` has a next state only at an end of its scan (R92). -/
theorem exec_decf_next {s t : State} (h : exec .decf s = .next t) :
    (∃ a, ScanEnd s.frameBit s.flen.toNat ⟨.found, a⟩ ∧ t = s.decodeDone a) ∨
    (∃ a, ScanEnd s.frameBit s.flen.toNat ⟨.exhausted, a⟩ ∧
      t = s.failed .incomplete .exhausted (BitVec.ofNat 32 a.length)) := by
  rcases exec_decf_cases s with ⟨a, ha, e⟩ | ⟨a, ha, e⟩ | ⟨r, a, -, e⟩ <;> rw [e] at h <;> cases h
  · exact .inl ⟨a, ha, rfl⟩
  · exact .inr ⟨a, ha, rfl⟩

/-- `EXTRACT` has a next state only in a malformed buffer or at an end of its scan (R124). -/
theorem exec_extract_next {s t : State} (h : exec .extract s = .next t) :
    (s.malformed = true ∧ t = s.failed .malformedBuffer .scanning 0#32) ∨
    (∃ a, s.malformed = false ∧ ScanEnd s.channelBit s.available ⟨.found, a⟩ ∧ t = s.decodeDone a) ∨
    (∃ a, s.malformed = false ∧ ScanEnd s.channelBit s.available ⟨.exhausted, a⟩ ∧
      t = s.failed .noWatermarkFound .exhausted (BitVec.ofNat 32 a.length)) := by
  rcases exec_extract_cases s with ⟨hb, e⟩ | ⟨a, hb, ha, e⟩ | ⟨a, hb, ha, e⟩ | ⟨r, a, -, -, e⟩ <;>
    rw [e] at h <;> cases h
  · exact .inl ⟨hb, rfl⟩
  · exact .inr (.inl ⟨a, hb, ha, rfl⟩)
  · exact .inr (.inr ⟨a, hb, ha, rfl⟩)

/-! ## Counts as 32-bit words -/

/-- The frame's length is `8*MLEN + 16` (R81, R83). -/
theorem State.length_frame {s : State} {msg : List Byte} (h : s.message = .ok msg) :
    (encodeFrame msg).length = s.required := by
  rw [length_encodeFrame, (State.message_eq_ok.mp h).1, State.required]

theorem State.available_lt (s : State) : s.available < 2 ^ 32 :=
  lt_of_le_of_lt s.available_le s.slen.isLt

/-- A frame that fits the buffer fits a 32-bit register: the sum `8*MLEN + 16` does not wrap (R113). -/
theorem State.required_lt {s : State} (h : s.required ≤ s.available) : s.required < 2 ^ 32 :=
  lt_of_le_of_lt h s.available_lt

theorem State.encfDone_idx_toNat {s : State} (h : s.required < 2 ^ 32) (msg : List Byte) :
    (s.encfDone msg).idx.toNat = s.required :=
  (BitVec.toNat_ofNat _ _).trans (Nat.mod_eq_of_lt h)

theorem State.embedDone_idx_toNat {s : State} (h : s.required ≤ s.available) (mem : Memory 16) :
    (s.embedDone mem).idx.toNat = s.required :=
  (BitVec.toNat_ofNat _ _).trans (Nat.mod_eq_of_lt (State.required_lt h))

/-- The number of bits a scan consumed fits register `IDX` (R18). -/
theorem ScanEnd.toNat_length {bits : Nat → Except Fault Bit} {m : Nat} {d : Decoder} (h : ScanEnd bits m d)
    (hm : m < 2 ^ 32) : (BitVec.ofNat 32 d.acc.length).toNat = d.acc.length :=
  (BitVec.toNat_ofNat _ _).trans (Nat.mod_eq_of_lt (lt_of_le_of_lt h.le hm))

/-- A scan that found a terminator consumed at least its 16 bits (R88). -/
theorem ScanEnd.le_length_of_found {bits : Nat → Except Fault Bit} {m : Nat} {a : List Bit}
    (h : ScanEnd bits m ⟨.found, a⟩) : 16 ≤ a.length := by
  obtain ⟨-, ht⟩ | ⟨hs, -⟩ := h.outcome
  · exact ((termAt_iff le_rfl).mp ht).1
  · cases hs

/-- A scan that found none consumed every bit within its bound (R93). -/
theorem ScanEnd.length_of_exhausted {bits : Nat → Except Fault Bit} {m : Nat} {a : List Bit}
    (h : ScanEnd bits m ⟨.exhausted, a⟩) : a.length = m := by
  obtain ⟨hs, -⟩ | ⟨-, hl, -⟩ := h.outcome
  · cases hs
  · exact hl

/-- A scan depends on the source bits it consumed and on no other (R90). -/
theorem ScanEnd.of_consumed {bits bits' : Nat → Except Fault Bit} {m : Nat} {d : Decoder}
    (h : ScanEnd bits m d) (hb : ∀ k b, k < d.acc.length → bits k = .ok b → bits' k = .ok b) :
    ScanEnd bits' m d :=
  { h with consumed := fun k b hk => hb k b (List.getElem?_eq_some_iff.mp hk).1 (h.consumed k b hk) }

/-! ## The invariant -/

/-- With `BUSY = 0` a step performs the next host action as the idle core takes it (R66, R72). -/
theorem step_cons_idle {s : State} {a : HostAction} {rest : List HostAction} (h : s.script = a :: rest)
    (hb : s.status.busy = false) : step s = { s with script := rest }.idleAction a :=
  (step_cons h).trans (State.hostAction_idle (s := { s with script := rest }) hb a)

/-- The loop of `EMBED` keeps the canonical form: no index it writes passes the end of the buffer. -/
theorem State.embedDone_wf {s : State} {msg : List Byte} {mem : Memory 16} (hb : s.malformed = false)
    (hr : s.required ≤ s.available) (hm : s.message = .ok msg)
    (he : embedBits s.chans.toNat s.sMem 0 (encodeFrame msg) = .ok mem) (hw : s.sMem.wf) :
    (s.embedDone mem).sMem.wf := by
  have hlen := State.length_frame hm
  refine embedBits_wf hw (fun k hk => ?_) he
  rw [Nat.zero_add]
  exact (State.embed_index_lt hb (by omega)).trans s.slen.isLt

/-- Every command keeps the three spaces in their canonical form (R49). -/
theorem exec_wf {i : Instr} {s t : State} (h : exec i s = .next t) (hS : s.sMem.wf) (hM : s.mMem.wf)
    (hF : s.fMem.wf) : t.sMem.wf ∧ t.mMem.wf ∧ t.fMem.wf := by
  rcases exec_next_cases h with ⟨-, rfl⟩ | ⟨-, rfl⟩ | ⟨-, -, rfl⟩ | ⟨msg, -, hr, hm, rfl⟩ | ⟨a, -, ha, rfl⟩ |
    ⟨a, -, -, rfl⟩ | ⟨-, -, rfl⟩ | ⟨-, -, -, rfl⟩ | ⟨msg, mem, -, hb, hr, hm, he, rfl⟩ | ⟨a, -, -, ha, rfl⟩ |
    ⟨a, -, -, -, rfl⟩
  · exact ⟨hS, hM, hF⟩
  · exact ⟨hS, hM, hF⟩
  · exact ⟨hS, hM, hF⟩
  · exact ⟨hS, hM, State.encfDone_wf (by omega) hm hF⟩
  · exact ⟨hS, State.decodeDone_wf ha s.flen.isLt hM, hF⟩
  · exact ⟨hS, hM, hF⟩
  · exact ⟨hS, hM, hF⟩
  · exact ⟨hS, hM, hF⟩
  · exact ⟨State.embedDone_wf hb hr hm he hS, hM, hF⟩
  · exact ⟨hS, State.decodeDone_wf ha s.available_lt hM, hF⟩
  · exact ⟨hS, hM, hF⟩

/-- What a failed command shows is legal when its decoder state is the one of its code (R127) and `IDX` is 0
for a code that no scan reports (R140). -/
theorem State.failed_statusLegal {s : State} {e : ErrCode} {ds : DState} {x : Word}
    (h : ds = .scanning ∧ x = 0#32 ∧ e ≠ .noWatermarkFound ∧ e ≠ .incomplete ∨
      ds = .exhausted ∧ (e = .noWatermarkFound ∨ e = .incomplete)) : (s.failed e ds x).statusLegal := by
  rcases h with ⟨rfl, rfl, h1, h2⟩ | ⟨rfl, rfl | rfl⟩
  · exact ⟨rfl, nofun, nofun, by simp [State.failed, h1, h2], fun _ => rfl⟩
  · exact ⟨rfl, nofun, nofun, by simp [State.failed], by simp [State.failed]⟩
  · exact ⟨rfl, nofun, nofun, by simp [State.failed], by simp [State.failed]⟩

/-- What a command shows when it succeeds is legal unless it shows `EXHAUSTED` (R127). -/
theorem State.statusLegal_of_ok {t : State} {ds : DState} (hst : t.status = ⟨false, true, .ok, ds⟩)
    (hds : ds ≠ .exhausted) : t.statusLegal := by
  simp [State.statusLegal, hst, hds]

/-- Every command leaves an empty accumulator (R24) and a legal `STATUS` and `IDX` (R66, R127, R140). -/
theorem exec_acc_statusLegal {i : Instr} {s t : State} (h : exec i s = .next t) :
    t.acc = [] ∧ t.statusLegal := by
  rcases exec_next_cases h with ⟨-, rfl⟩ | ⟨-, rfl⟩ | ⟨-, -, rfl⟩ | ⟨msg, -, -, -, rfl⟩ | ⟨a, -, -, rfl⟩ |
    ⟨a, -, -, rfl⟩ | ⟨-, -, rfl⟩ | ⟨-, -, -, rfl⟩ | ⟨msg, mem, -, -, -, -, -, rfl⟩ | ⟨a, -, -, -, rfl⟩ |
    ⟨a, -, -, -, rfl⟩ <;> refine ⟨rfl, ?_⟩
  · exact State.statusLegal_of_ok rfl nofun
  · exact State.statusLegal_of_ok rfl nofun
  · exact State.failed_statusLegal (.inl ⟨rfl, rfl, nofun, nofun⟩)
  · exact State.statusLegal_of_ok rfl nofun
  · exact State.statusLegal_of_ok rfl nofun
  · exact State.failed_statusLegal (.inr ⟨rfl, .inr rfl⟩)
  · exact State.failed_statusLegal (.inl ⟨rfl, rfl, nofun, nofun⟩)
  · exact State.failed_statusLegal (.inl ⟨rfl, rfl, nofun, nofun⟩)
  · exact State.statusLegal_of_ok rfl nofun
  · exact State.statusLegal_of_ok rfl nofun
  · exact State.failed_statusLegal (.inr ⟨rfl, .inl rfl⟩)

theorem exec_inv {i : Instr} {s t : State} (h : exec i s = .next t) (hs : s.Inv) : t.Inv := by
  obtain ⟨hS, hM, hF, -, -⟩ := hs
  obtain ⟨hS', hM', hF'⟩ := exec_wf h hS hM hF
  exact ⟨hS', hM', hF', exec_acc_statusLegal h⟩

/-- A word that is no command is a failure without a scan (R143). -/
theorem State.illegalCommand_eq_failed (s : State) :
    s.illegalCommand = s.failed .illegalCommand .scanning 0#32 := rfl

theorem State.issue_inv {s t : State} {w : Word} (h : s.issue w = .next t) (hs : s.Inv) : t.Inv := by
  cases hd : decode w with
  | some i => rw [State.issue_legal hd] at h; exact exec_inv h hs
  | none =>
    rw [State.issue_illegal hd, State.illegalCommand_eq_failed] at h
    cases h
    obtain ⟨hS, hM, hF, -, -⟩ := hs
    exact ⟨hS, hM, hF, rfl, State.failed_statusLegal (.inl ⟨rfl, rfl, nofun, nofun⟩)⟩

/-- The reset values of the registers are legal, whatever cells the spaces hold (R29, R160). -/
theorem State.inv_of_reset_registers {t : State} (hst : t.status = State.reset.status)
    (hi : t.idx = State.reset.idx) (ha : t.acc = State.reset.acc)
    (hw : t.sMem.wf ∧ t.mMem.wf ∧ t.fMem.wf) : t.Inv := by
  obtain ⟨hS, hM, hF⟩ := hw
  refine ⟨hS, hM, hF, ha, ?_⟩
  simp [State.statusLegal, hst, hi, State.reset]

theorem State.resetRegisters_inv {s : State} (hs : s.Inv) : s.resetRegisters.Inv := by
  obtain ⟨hS, hM, hF, -, -⟩ := hs
  exact State.inv_of_reset_registers rfl rfl rfl ⟨hS, hM, hF⟩

theorem drawn_wf {w : Nat} {mem : Memory w} (hw : mem.wf) (free : Nat → BitVec w) (k : Nat) (n : Word) :
    (mem.writeFrom 0 (drawn free k n.toNat)).wf :=
  Memory.writeFrom_wf _ hw 0 (by rw [length_drawn, Nat.zero_add]; exact n.isLt.le)

/-- The frame positions that an `EMBED` which succeeded reports in `IDX` lie within the buffer (R113). -/
theorem exec_embed_index_lt {s t : State} (h : exec .embed s = .next t) (hok : t.status.err = .ok) {j : Nat}
    (hj : j < t.idx.toNat) : j * s.chans.toNat < Config.cellCount := by
  obtain ⟨msg, mem, hb, hr, -, -, rfl⟩ := exec_embed_next_ok h hok
  rw [State.embedDone_idx_toNat hr] at hj
  exact (State.embed_index_lt hb (by omega)).trans s.slen.isLt

/-- Reset during a command gives the registers their reset values, and the cells it draws are cells of the
command's write set, so that the spaces stay canonical (R161). -/
theorem State.abandoned_inv {i : Instr} {s t : State} (h : exec i s = .next t) (hs : s.Inv) :
    (s.abandoned i t).Inv := by
  have hreset := State.resetRegisters_inv hs
  obtain ⟨hS, hM, hF, -, -⟩ := hs
  unfold State.abandoned
  split
  next hok =>
    cases i with
    | encf => exact State.inv_of_reset_registers rfl rfl rfl ⟨hS, hM, drawn_wf hF _ _ _⟩
    | decf => exact State.inv_of_reset_registers rfl rfl rfl ⟨hS, drawn_wf hM _ _ _, hF⟩
    | getlsb => exact hreset
    | setlsb => exact hreset
    | embed =>
      refine State.inv_of_reset_registers rfl rfl rfl ⟨drawSamples_wf hS fun j hj => ?_, hM, hF⟩
      rw [Nat.zero_add]
      exact exec_embed_index_lt h hok hj
    | extract => exact State.inv_of_reset_registers rfl rfl rfl ⟨hS, drawn_wf hM _ _ _, hF⟩
  next => exact hreset

theorem State.abandon_inv {s t : State} {w : Word} (h : s.abandon w = .next t) (hs : s.Inv) : t.Inv := by
  unfold State.abandon at h
  split at h
  · cases h; exact State.resetRegisters_inv hs
  · split at h <;> cases h
    next hx => exact State.abandoned_inv hx hs

theorem State.collect_inv {s t : State} {w : Nat} {wrap : BitVec w → ReadData}
    {cell : Except Fault (BitVec w)} (h : s.collect wrap cell = .next t) (hs : s.Inv) : t.Inv := by
  cases cell with
  | ok v => cases h; exact hs
  | error r => cases h

theorem State.writeReg_inv {s : State} (hs : s.Inv) (n : Nat) (d : Word) : (s.writeReg n d).Inv := by
  obtain ⟨hst, hi, ha, hS, hM, hF, -, -, -⟩ := s.writeReg_frame n d
  simpa only [State.Inv, State.statusLegal, hst, hi, ha, hS, hM, hF] using hs

/-- Every host action keeps the invariant: with `BUSY = 0` it writes operand registers or one cell of a
space, reads, resets, or issues a command. -/
theorem State.idleAction_inv {s t : State} {a : HostAction} (h : s.idleAction a = .next t) (hs : s.Inv) :
    t.Inv := by
  cases a with
  | wr n d =>
    by_cases hn : n = 0
    · subst hn; exact State.issue_inv h hs
    · rw [State.idleAction_wr s hn] at h; cases h; exact State.writeReg_inv hs n d
  | rd n => cases h; exact hs
  | ws x v =>
    cases h
    obtain ⟨hS, hrest⟩ := hs
    exact ⟨Memory.write_wf hS x.isLt v, hrest⟩
  | wm x v =>
    cases h
    obtain ⟨hS, hM, hrest⟩ := hs
    exact ⟨hS, Memory.write_wf hM x.isLt v, hrest⟩
  | wf x v =>
    cases h
    obtain ⟨hS, hM, hF, hrest⟩ := hs
    exact ⟨hS, hM, Memory.write_wf hF x.isLt v, hrest⟩
  | rs _ | rm _ | rf _ => exact State.collect_inv h hs
  | reset => cases h; exact State.resetRegisters_inv hs
  | abandon w => exact State.abandon_inv h hs

/-- Settles O57: a step is the end of the script or one host action of an idle core, and each keeps the
invariant. -/
theorem stepKeepsInvariant : Obligations.StepKeepsInvariant := by
  intro s t hs h
  have hbusy : s.status.busy = false := by
    obtain ⟨-, -, -, -, hb, -⟩ := hs
    exact hb
  cases hscript : s.script with
  | nil => rw [step_nil hscript hbusy] at h; cases h; exact hs
  | cons a rest =>
    rw [step_cons_idle hscript hbusy] at h
    exact State.idleAction_inv h hs

/-- Settles O58: the reset registers are legal and the empty spaces canonical. -/
theorem resetMeetsInvariant : Obligations.ResetMeetsInvariant :=
  State.inv_of_reset_registers rfl rfl rfl ⟨Memory.wf_nil, Memory.wf_nil, Memory.wf_nil⟩

/-! ## What `IDX` holds -/

/-- A scan that ended with a terminator left in `IDX` a count between 16 and its bound. -/
theorem State.decodeDone_idx_bounds {s : State} {bits : Nat → Except Fault Bit} {m : Nat} {a : List Bit}
    (h : ScanEnd bits m ⟨.found, a⟩) (hm : m < 2 ^ 32) :
    16 ≤ (s.decodeDone a).idx.toNat ∧ (s.decodeDone a).idx.toNat ≤ m := by
  rw [show (s.decodeDone a).idx.toNat = a.length from h.toNat_length hm]
  exact ⟨h.le_length_of_found, h.le⟩

/-- Settles O39: the outcomes of each command give the counts; a failure before any bit was processed leaves
`IDX = 0` because what a command shows is legal (`exec_acc_statusLegal`). -/
theorem idxAtCompletion : Obligations.IdxAtCompletion := by
  intro s t
  refine ⟨fun h hok => ?_, fun h hok => ?_, fun h hok => ?_, fun h hok => ?_, fun h he => ?_, fun h he => ?_,
    fun h => ?_, fun i h he => ?_⟩
  · obtain ⟨msg, hr, -, rfl⟩ := exec_encf_next_ok h hok
    exact State.encfDone_idx_toNat hr msg
  · obtain ⟨msg, mem, -, hr, -, -, rfl⟩ := exec_embed_next_ok h hok
    exact State.embedDone_idx_toNat hr mem
  · obtain ⟨a, ha, rfl⟩ | ⟨a, -, rfl⟩ := exec_decf_next h
    · exact State.decodeDone_idx_bounds ha s.flen.isLt
    · cases hok
  · obtain ⟨-, rfl⟩ | ⟨a, -, ha, rfl⟩ | ⟨a, -, -, rfl⟩ := exec_extract_next h
    · cases hok
    · exact State.decodeDone_idx_bounds ha s.available_lt
    · cases hok
  · obtain ⟨a, -, rfl⟩ | ⟨a, ha, rfl⟩ := exec_decf_next h
    · cases he
    · show BitVec.ofNat 32 a.length = s.flen
      rw [ha.length_of_exhausted, BitVec.ofNat_toNat, BitVec.setWidth_eq]
  · obtain ⟨-, rfl⟩ | ⟨a, -, -, rfl⟩ | ⟨a, -, ha, rfl⟩ := exec_extract_next h
    · cases he
    · cases he
    · exact (ha.toNat_length s.available_lt).trans ha.length_of_exhausted
  · rcases h with h | h
    · rw [exec_getlsb] at h; cases h; rfl
    · rw [exec_setlsb] at h; cases h; rfl
  · obtain ⟨-, -, -, -, -, hidx⟩ := exec_acc_statusLegal h
    exact hidx (by rcases he with he | he <;> simp [he])

/-! ## What the commands read -/

/-- `ENCF` and `EMBED` read the message only (R28). -/
theorem State.message_congr {s s' : State} (hl : s'.mlen = s.mlen)
    (hM : ∀ j, j < s.mlen.toNat → s'.mMem.read j = s.mMem.read j) {msg : List Byte}
    (h : s.message = .ok msg) : s'.message = .ok msg := by
  obtain ⟨hlen, hcells⟩ := State.message_eq_ok.mp h
  refine State.message_eq_ok.mpr ⟨by rw [hl, hlen], fun k hk => ?_⟩
  rw [hl] at hk
  rw [hM k hk, hcells k hk]

theorem State.required_congr {s s' : State} (hl : s'.mlen = s.mlen) : s'.required = s.required := by
  rw [State.required, State.required, hl]

theorem State.malformed_congr {s s' : State} (hc : s'.chans = s.chans) (hl : s'.slen = s.slen) :
    s'.malformed = s.malformed := by
  rw [State.malformed, State.malformed, hc, hl]

theorem State.available_congr {s s' : State} (hc : s'.chans = s.chans) (hl : s'.slen = s.slen) :
    s'.available = s.available := by
  rw [State.available, State.available, hc, hl]

theorem State.chans_pos {s : State} (h : s.malformed = false) : 0 < s.chans.toNat := by
  by_contra h0
  rw [(State.malformed_iff s).mpr (.inl (by omega))] at h
  cases h

/-- Two runs of `EMBED`'s loop over the same bits, from samples that agree where the loop goes: the second
ends too, and leaves the same samples there. -/
theorem embedBits_congr {stride : Nat} (hs : 0 < stride) {bits : List Bit} {mem mem' out : Memory 16}
    (hagree : ∀ k, k < bits.length → mem'.read (k * stride) = mem.read (k * stride))
    (h : embedBits stride mem 0 bits = .ok out) :
    ∃ out', embedBits stride mem' 0 bits = .ok out' ∧
      ∀ k, k < bits.length → out'.read (k * stride) = out.read (k * stride) := by
  obtain ⟨hout, -⟩ := embedBits_eq_ok hs h
  simp only [Nat.zero_add] at hout
  have hisOk : ∃ out', embedBits stride mem' 0 bits = .ok out' := by
    refine embedBits_isOk hs fun k hk => ?_
    obtain ⟨v, hv, -⟩ := hout k _ (List.getElem?_eq_getElem hk)
    rw [Nat.zero_add, hagree k hk, hv]
    rfl
  obtain ⟨out', h'⟩ := hisOk
  obtain ⟨hout', -⟩ := embedBits_eq_ok hs h'
  simp only [Nat.zero_add] at hout'
  refine ⟨out', h', fun k hk => ?_⟩
  obtain ⟨v, hv, hw⟩ := hout k _ (List.getElem?_eq_getElem hk)
  obtain ⟨v', hv', hw'⟩ := hout' k _ (List.getElem?_eq_getElem hk)
  rw [hagree k hk, hv] at hv'
  cases hv'
  rw [hw, hw']

/-- Settles O42: the message determines the frame, and the frame and the old samples determine the new
samples. -/
theorem encodersReadOnlyTheirInputs : Obligations.EncodersReadOnlyTheirInputs := by
  intro s s' t hl hM
  have hreq := State.required_congr hl
  refine ⟨fun h => ?_, fun h hc hsl hS => ?_⟩
  · rcases exec_encf_cases s with ⟨hr, e⟩ | ⟨msg, hr, hm, e⟩ | ⟨r, -, -, e⟩ <;> rw [e] at h <;> cases h
    · exact ⟨_, exec_encf_overflow (hreq ▸ hr), rfl, rfl, nofun⟩
    · have hm' := State.message_congr hl hM hm
      have hword : BitVec.ofNat 32 s'.required = BitVec.ofNat 32 s.required := by rw [hreq]
      refine ⟨_, exec_encf_ok (hreq ▸ hr) hm', rfl, hword, fun _ => ⟨hword, fun k hk => ?_⟩⟩
      have hin : 0 ≤ k ∧ k < 0 + (encodeFrame msg).length := by
        rw [State.length_frame hm, State.required]; omega
      simp only [State.encfDone, Memory.read_writeFrom, if_pos hin]
  · have hmal := State.malformed_congr hc hsl
    have hav := State.available_congr hc hsl
    rcases exec_embed_cases s with ⟨hb, e⟩ | ⟨hb, hr, e⟩ | ⟨msg, mem, hb, hr, hm, he, e⟩ | ⟨r, -, -, -, e⟩ |
      ⟨r, msg, -, -, -, -, e⟩ <;> rw [e] at h <;> cases h
    · exact ⟨_, exec_embed_malformed (hmal.trans hb), rfl, rfl, nofun⟩
    · exact ⟨_, exec_embed_capacity (hmal.trans hb) (by omega), rfl, rfl, nofun⟩
    · have hm' := State.message_congr hl hM hm
      have hlen : (encodeFrame msg).length = 8 * s.mlen.toNat + 16 := State.length_frame hm
      obtain ⟨mem', he', hsame⟩ := embedBits_congr (State.chans_pos hb) (by rwa [hlen]) he
      rw [← hc] at he'
      refine ⟨_, exec_embed_ok (hmal.trans hb) (by omega) hm' he', rfl, ?_, fun _ => by rwa [hlen] at hsame⟩
      exact congrArg (BitVec.ofNat 32) hreq

/-- What a decoder delivers depends on the bits consumed only: not on the old message. -/
theorem State.decodeDone_message_eq (s s' : State) (a : List Bit) {j : Nat}
    (hj : j < (s.decodeDone a).mlen.toNat) :
    (s'.decodeDone a).mMem.read j = (s.decodeDone a).mMem.read j := by
  have hlen : j < (messageOf .padZeroRight a a.length).length :=
    lt_of_lt_of_le hj ((BitVec.toNat_ofNat _ _).trans_le (Nat.mod_le _ _))
  simp only [State.decodeDone, Memory.read_writeFrom, Nat.zero_le, Nat.zero_add, hlen, and_self, if_true]

theorem State.frameBit_congr {s s' : State} {k : Nat} (h : s'.fMem.read k = s.fMem.read k) {b : Bit}
    (hb : s.frameBit k = .ok b) : s'.frameBit k = .ok b := by
  rw [State.frameBit_eq_ok] at hb ⊢
  rw [h, hb]

/-- `EXTRACT` reads bit 0 of a sample only (R123). -/
theorem State.channelBit_congr {s s' : State} {k : Nat} (hc : s'.chans = s.chans)
    (h : (s'.sMem.read (k * s.chans.toNat)).map (fun v => v.extractLsb' 0 1) =
      (s.sMem.read (k * s.chans.toNat)).map (fun v => v.extractLsb' 0 1)) {b : Bit}
    (hb : s.channelBit k = .ok b) : s'.channelBit k = .ok b := by
  rw [State.channelBit_eq_ok] at hb ⊢
  obtain ⟨v, hv, rfl⟩ := hb
  rw [hv, Option.map_some, Option.map_eq_some_iff] at h
  obtain ⟨v', hv', hbit⟩ := h
  exact ⟨v', by rw [hc, hv'], by rw [getLsb_eq_extract, getLsb_eq_extract, hbit]⟩

/-- Settles O43: the scan of the second state consumes the same bits (`ScanEnd.of_consumed`), and the bits
consumed determine the answer. -/
theorem decodersReadOnlyTheirInputs : Obligations.DecodersReadOnlyTheirInputs := by
  intro s s' t
  refine ⟨fun h hfl hF => ?_, fun h hc hsl hS => ?_⟩
  · have hscan : ∀ {d}, ScanEnd s.frameBit s.flen.toNat d →
        t.idx = BitVec.ofNat 32 d.acc.length → ScanEnd s'.frameBit s'.flen.toNat d := fun ha hidx => by
      rw [hidx, ha.toNat_length s.flen.isLt] at hF
      rw [hfl]
      exact ha.of_consumed fun k b hk => State.frameBit_congr (hF k hk)
    obtain ⟨a, ha, rfl⟩ | ⟨a, ha, rfl⟩ := exec_decf_next h
    · exact ⟨_, exec_decf_found (hscan ha rfl), rfl, rfl,
        fun _ => ⟨rfl, fun j hj => State.decodeDone_message_eq s s' a hj⟩⟩
    · exact ⟨_, exec_decf_exhausted (hscan ha rfl), rfl, rfl, nofun⟩
  · have hmal := State.malformed_congr hc hsl
    have hscan : ∀ {d}, ScanEnd s.channelBit s.available d →
        t.idx = BitVec.ofNat 32 d.acc.length → ScanEnd s'.channelBit s'.available d := fun ha hidx => by
      rw [hidx, ha.toNat_length s.available_lt] at hS
      rw [State.available_congr hc hsl]
      exact ha.of_consumed fun k b hk => State.channelBit_congr hc (hS k hk)
    obtain ⟨hb, rfl⟩ | ⟨a, hb, ha, rfl⟩ | ⟨a, hb, ha, rfl⟩ := exec_extract_next h
    · exact ⟨_, exec_extract_malformed (hmal.trans hb), rfl, rfl, nofun⟩
    · exact ⟨_, exec_extract_found (hmal.trans hb) (hscan ha rfl), rfl, rfl,
        fun _ => ⟨rfl, fun j hj => State.decodeDone_message_eq s s' a hj⟩⟩
    · exact ⟨_, exec_extract_exhausted (hmal.trans hb) (hscan ha rfl), rfl, rfl, nofun⟩

/-- A command begins by setting `STATUS`, `IDX` and `ACC` (R66), and goes on from there. -/
theorem exec_eq_of_accept_eq {s s' : State} (h : s'.accept = s.accept) (i : Instr) :
    exec i s' = exec i s := by
  cases i with
  | encf => simp only [exec, execEncf, h]
  | decf => simp only [exec, execDecf, h]
  | getlsb => simp only [exec, execGetlsb, h]
  | setlsb => simp only [exec, execSetlsb, h]
  | embed => simp only [exec, execEmbed, h]
  | extract => simp only [exec, execExtract, h]

/-- Settles O40: acceptance sets all three. -/
theorem noResidueBetweenCommands : Obligations.NoResidueBetweenCommands :=
  fun i _ _ _ _ => exec_eq_of_accept_eq rfl i

/-! ## What the commands write -/

/-- The write sets of R28 as one table: `s` with the registers and spaces that command `i` may write taken
from `t`. -/
def State.overwrite (i : Instr) (s t : State) : State :=
  { s with
    status := t.status, idx := t.idx, acc := t.acc
    samp := if i = .setlsb then t.samp else s.samp
    bitv := if i = .getlsb then t.bitv else s.bitv
    flen := if i = .encf then t.flen else s.flen
    fMem := if i = .encf then t.fMem else s.fMem
    mlen := if i = .decf ∨ i = .extract then t.mlen else s.mlen
    mMem := if i = .decf ∨ i = .extract then t.mMem else s.mMem
    sMem := if i = .embed then t.sMem else s.sMem }

/-- A command changes nothing outside its write set (R28). -/
theorem exec_eq_overwrite {i : Instr} {s t : State} (h : exec i s = .next t) : t = s.overwrite i t := by
  rcases exec_next_cases h with ⟨rfl, rfl⟩ | ⟨rfl, rfl⟩ | ⟨rfl, -, rfl⟩ | ⟨msg, rfl, -, -, rfl⟩ |
    ⟨a, rfl, -, rfl⟩ | ⟨a, rfl, -, rfl⟩ | ⟨rfl | rfl, -, rfl⟩ | ⟨rfl, -, -, rfl⟩ |
    ⟨msg, mem, rfl, -, -, -, -, rfl⟩ | ⟨a, rfl, -, -, rfl⟩ | ⟨a, rfl, -, -, rfl⟩ <;> rfl

/-- The message a decoder delivers ends at `MLEN` (R92). -/
theorem State.decodeDone_mMem_read_of_le {s : State} {bits : Nat → Except Fault Bit} {m : Nat} {a : List Bit}
    (h : ScanEnd bits m ⟨.found, a⟩) (hm : m < 2 ^ 32) {x : Nat} (hx : (s.decodeDone a).mlen.toNat ≤ x) :
    (s.decodeDone a).mMem.read x = s.mMem.read x := by
  have hlen := length_message_lt h hm
  have hmlen : (s.decodeDone a).mlen.toNat = (messageOf .padZeroRight a a.length).length :=
    (BitVec.toNat_ofNat _ _).trans (Nat.mod_eq_of_lt (by simp only at hlen; omega))
  rw [State.decodeDone, Memory.read_writeFrom, if_neg (by omega)]

/-- No command writes cells of `M` from `MLEN` on (R28). -/
theorem exec_mMem_read_of_le {i : Instr} {s t : State} (h : exec i s = .next t) {x : Nat}
    (hx : t.mlen.toNat ≤ x) : t.mMem.read x = s.mMem.read x := by
  cases i with
  | encf | getlsb | setlsb | embed =>
    have hM : t.mMem = s.mMem := (congrArg State.mMem (exec_eq_overwrite h)).trans rfl
    rw [hM]
  | decf =>
    obtain ⟨a, ha, rfl⟩ | ⟨a, -, rfl⟩ := exec_decf_next h
    · exact State.decodeDone_mMem_read_of_le ha s.flen.isLt hx
    · rfl
  | extract =>
    obtain ⟨-, rfl⟩ | ⟨a, -, ha, rfl⟩ | ⟨a, -, -, rfl⟩ := exec_extract_next h
    · rfl
    · exact State.decodeDone_mMem_read_of_le ha s.available_lt hx
    · rfl

/-- Cells of `F` from `FLEN` on are not written by `ENCF` (R83). -/
theorem exec_encf_fMem_read_of_le {s t : State} (h : exec .encf s = .next t) {x : Nat}
    (hx : t.flen.toNat ≤ x) : t.fMem.read x = s.fMem.read x := by
  rcases exec_encf_cases s with ⟨-, e⟩ | ⟨msg, hr, hm, e⟩ | ⟨r, -, -, e⟩ <;> rw [e] at h <;> cases h
  · rfl
  · have hflen : (s.encfDone msg).flen.toNat = s.required := State.encfDone_idx_toNat (by omega) msg
    have hlen := State.length_frame hm
    rw [State.encfDone, Memory.read_writeFrom, if_neg (by omega)]

/-- Settles O44: the table of write sets (`exec_eq_overwrite`), field by field, and the two bounds within
`F` and `M`. -/
theorem commandWriteSets : Obligations.CommandWriteSets := by
  intro i s t h
  have e := exec_eq_overwrite h
  have hdec : i ≠ .decf → i ≠ .extract → ¬ (i = .decf ∨ i = .extract) := fun h1 h2 => not_or.mpr ⟨h1, h2⟩
  exact ⟨(congrArg State.chans e).trans rfl, (congrArg State.slen e).trans rfl,
    fun hi => (congrArg State.samp e).trans (if_neg hi),
    fun hi => (congrArg State.bitv e).trans (if_neg hi),
    fun hi => ⟨(congrArg State.flen e).trans (if_neg hi), (congrArg State.fMem e).trans (if_neg hi)⟩,
    fun h1 h2 => ⟨(congrArg State.mlen e).trans (if_neg (hdec h1 h2)),
      (congrArg State.mMem e).trans (if_neg (hdec h1 h2))⟩,
    fun hi => (congrArg State.sMem e).trans (if_neg hi),
    fun x hx hi => exec_encf_fMem_read_of_le (hi ▸ h) hx,
    fun x hx => exec_mMem_read_of_le h hx,
    (congrArg State.script e).trans rfl, (congrArg State.reads e).trans rfl, (congrArg State.draws e).trans rfl⟩

/-! ## Where a command stops -/

/-- Settles O46: a command that has no next state stopped reading the message, a frame bit within `FLEN`, or
a designated sample within the frame (`EMBED`) or the buffer (`EXTRACT`). -/
theorem commandsStopOnlyAtUnwrittenCells : Obligations.CommandsStopOnlyAtUnwrittenCells := by
  intro i s
  cases i with
  | getlsb => exact .inl ⟨_, exec_getlsb s⟩
  | setlsb => exact .inl ⟨_, exec_setlsb s⟩
  | encf =>
    rcases exec_encf_cases s with ⟨-, e⟩ | ⟨msg, -, -, e⟩ | ⟨r, -, hm, e⟩
    · exact .inl ⟨_, e⟩
    · exact .inl ⟨_, e⟩
    · obtain ⟨j, hj, hnone, -, rfl⟩ := State.message_eq_error hm
      exact .inr (.inl ⟨j, e, .inl rfl, hj, hnone⟩)
  | decf =>
    rcases exec_decf_cases s with ⟨a, -, e⟩ | ⟨a, -, e⟩ | ⟨r, a, ha, e⟩
    · exact .inl ⟨_, e⟩
    · exact .inl ⟨_, e⟩
    · obtain ⟨hnone, rfl⟩ := State.frameBit_eq_error.mp ha.unread
      exact .inr (.inr (.inl ⟨a.length, e, rfl, ha.lt, hnone⟩))
  | embed =>
    rcases exec_embed_cases s with ⟨-, e⟩ | ⟨-, -, e⟩ | ⟨msg, mem, -, -, -, -, e⟩ | ⟨r, -, -, hm, e⟩ |
      ⟨r, msg, hb, hr, hm, he, e⟩
    · exact .inl ⟨_, e⟩
    · exact .inl ⟨_, e⟩
    · exact .inl ⟨_, e⟩
    · obtain ⟨j, hj, hnone, -, rfl⟩ := State.message_eq_error hm
      exact .inr (.inl ⟨j, e, .inr rfl, hj, hnone⟩)
    · obtain ⟨k, hk, hnone, rfl⟩ := embedBits_eq_error (State.chans_pos hb) he
      rw [Nat.zero_add] at hnone e
      rw [State.length_frame hm] at hk
      exact .inr (.inr (.inr ⟨k, e, .inl rfl, lt_of_lt_of_le hk hr, fun _ => hk, hnone⟩))
  | extract =>
    rcases exec_extract_cases s with ⟨-, e⟩ | ⟨a, -, -, e⟩ | ⟨a, -, -, e⟩ | ⟨r, a, -, ha, e⟩
    · exact .inl ⟨_, e⟩
    · exact .inl ⟨_, e⟩
    · exact .inl ⟨_, e⟩
    · obtain ⟨hnone, rfl⟩ := State.channelBit_eq_error.mp ha.unread
      exact .inr (.inr (.inr ⟨a.length, e, .inr rfl, ha.lt, nofun, hnone⟩))

/-! ## Reset and the register port -/

/-- Settles O47: each clause reads one field of `State.reset`. -/
theorem resetValues : Obligations.ResetValues :=
  ⟨rfl, by decide, rfl, rfl, rfl, rfl, rfl, rfl, rfl, rfl, rfl,
    fun x => ⟨Memory.read_nil x, Memory.read_nil x, Memory.read_nil x⟩⟩

/-- A host write to a register other than `CMD`, as a step (R10, R13). -/
theorem step_writeReg {s : State} {rest : List HostAction} (hb : s.status.busy = false) {n : Nat} {d : Word}
    (h : s.script = .wr n d :: rest) (hn : n ≠ 0) : step s = .next ({ s with script := rest }.writeReg n d) := by
  rw [step_cons_idle h hb, State.idleAction_wr _ hn]

/-- A host read of a register, as a step (R10, R13). -/
theorem step_readReg {s : State} {rest : List HostAction} (hb : s.status.busy = false) {n : Nat}
    (h : s.script = .rd n :: rest) :
    step s = .next { s with script := rest, reads := .reg (s.readReg n) :: s.reads } :=
  step_cons_idle h hb

theorem State.readReg_reserved (s : State) {n : Nat} (h : 9 ≤ n) : s.readReg n = 0#32 := by
  obtain ⟨k, rfl⟩ := Nat.exists_eq_add_of_le' h
  rfl

theorem State.writeReg_reserved (s : State) {n : Nat} (h : 9 ≤ n) (d : Word) : s.writeReg n d = s := by
  obtain ⟨k, rfl⟩ := Nat.exists_eq_add_of_le' h
  rfl

/-- Settles O50: registers 2 and 3 on the port; the low bits of a word are its truncation, and a read
extends with zeros. -/
theorem narrowRegistersOnThePort : Obligations.NarrowRegistersOnThePort := by
  intro s rest hb
  refine ⟨fun d h => ?_, fun d h => ?_, fun h => ?_, fun h => ?_⟩
  · rw [step_writeReg hb h (by decide), ← BitVec.setWidth_eq_extractLsb' (by decide)]
    rfl
  · rw [step_writeReg hb h (by decide), ← BitVec.setWidth_eq_extractLsb' (by decide)]
    rfl
  · rw [step_readReg hb h, State.readReg, BitVec.setWidth_eq_append (by decide)]
    rfl
  · rw [step_readReg hb h, State.readReg, BitVec.setWidth_eq_append (by decide)]
    rfl

/-! The fields of the `STATUS` word (R21). -/

section
variable (busy done : Bool) (err : BitVec 4) (dstate : BitVec 2)

@[simp] theorem packStatus_busy : (packStatus busy done err dstate).getLsbD 0 = busy := by
  simp only [packStatus, BitVec.getLsbD_setWidth, BitVec.getLsbD_append]
  simp

@[simp] theorem packStatus_done : (packStatus busy done err dstate).getLsbD 1 = done := by
  simp only [packStatus, BitVec.getLsbD_setWidth, BitVec.getLsbD_append]
  simp

theorem packStatus_fields :
    (packStatus busy done err dstate).extractLsb' 2 2 = 0#2 ∧
    (packStatus busy done err dstate).extractLsb' 4 4 = err ∧
    (packStatus busy done err dstate).extractLsb' 8 2 = dstate ∧
    (packStatus busy done err dstate).extractLsb' 10 22 = 0#22 := by
  rw [packStatus]
  refine ⟨?_, ?_, ?_, ?_⟩ <;> rw [BitVec.extractLsb'_setWidth_of_le (by decide)] <;>
    simp (disch := decide) only [BitVec.extractLsb'_append_eq_of_le, BitVec.extractLsb'_append_eq_of_add_le,
      Nat.reduceSub, BitVec.extractLsb'_eq_self]

end

/-- Settles O51: no arm of the register port names a number of 9 or above, and `STATUS` is packed with zeros
between its fields. -/
theorem reservedNumbersAndFields : Obligations.ReservedNumbersAndFields := by
  refine ⟨fun s rest n hn hb => ⟨fun d h => ?_, fun h => ?_⟩, fun st => ?_⟩
  · rw [step_writeReg hb h (by omega), State.writeReg_reserved _ hn]
  · rw [step_readReg hb h, State.readReg_reserved _ hn]
  · obtain ⟨hlow, -, -, hhigh⟩ := packStatus_fields st.busy st.done st.err.code st.dstate.code
    exact ⟨hlow, hhigh⟩

/-- Settles O52: each field stands where `packStatus` puts it, and the codes are R23's numbers. -/
theorem statusWordLayout : Obligations.StatusWordLayout := by
  intro st
  obtain ⟨-, herr, hdstate, -⟩ := packStatus_fields st.busy st.done st.err.code st.dstate.code
  refine ⟨packStatus_busy _ _ _ _, packStatus_done _ _ _ _, herr.trans ?_, hdstate.trans ?_⟩
  · cases st.err <;> rfl
  · cases st.dstate <;> rfl

/-- Settles O53: registers 0, 1 and 4 to 8 on the port. -/
theorem registerPort : Obligations.RegisterPort := by
  intro s rest hb
  refine ⟨fun d h => step_writeReg hb h (by decide), fun d h => step_writeReg hb h (by decide),
    fun d h => step_writeReg hb h (by decide), fun d h => step_writeReg hb h (by decide), fun d h => ?_,
    fun n v h hv => ?_⟩
  · rcases h with h | h <;> exact step_writeReg hb h (by decide)
  · rw [step_readReg hb h]
    rcases hv with ⟨rfl, rfl⟩ | ⟨rfl, rfl⟩ | ⟨rfl, rfl⟩ | ⟨rfl, rfl⟩ | ⟨rfl, rfl⟩ | ⟨rfl, rfl⟩ | ⟨rfl, rfl⟩ <;>
      rfl

end Sys2Proof.Machine
end

section
/-!
Proofs of the statements about the cell spaces (spec/20_memory.md): the cells a command leaves untouched, and the
host's cell port.
-/

namespace Sys2Proof.Machine

/-! ## The cells a command leaves untouched -/

/-- A command that reports a failure has changed `STATUS`, `IDX` and `ACC` only (R144). -/
theorem exec_next_failed {i : Instr} {s t : State} (h : exec i s = .next t) (herr : t.status.err ≠ .ok) :
    ∃ e ds x, t = s.failed e ds x := by
  rcases exec_next_cases h with ⟨-, rfl⟩ | ⟨-, rfl⟩ | ⟨-, -, rfl⟩ | ⟨msg, -, -, -, rfl⟩ | ⟨a, -, -, rfl⟩ |
    ⟨a, -, -, rfl⟩ | ⟨-, -, rfl⟩ | ⟨-, -, -, rfl⟩ | ⟨msg, mem, -, -, -, -, -, rfl⟩ | ⟨a, -, -, -, rfl⟩ |
    ⟨a, -, -, -, rfl⟩
  · exact absurd rfl herr
  · exact absurd rfl herr
  · exact ⟨_, _, _, rfl⟩
  · exact absurd rfl herr
  · exact absurd rfl herr
  · exact ⟨_, _, _, rfl⟩
  · exact ⟨_, _, _, rfl⟩
  · exact ⟨_, _, _, rfl⟩
  · exact absurd rfl herr
  · exact absurd rfl herr
  · exact ⟨_, _, _, rfl⟩

/-- `EMBED` leaves a sample as it was, or it is the designated sample of a frame bit and has its LSB replaced
(R114), whatever the command's result. -/
theorem exec_embed_sample_cases {s t : State} (h : exec .embed s = .next t) (x : Nat) :
    t.sMem.read x = s.sMem.read x ∨
    ∃ k v b, k < s.required ∧ x = k * s.chans.toNat ∧ s.sMem.read x = some v ∧
      t.sMem.read x = some (setLsb v b) := by
  by_cases hok : t.status.err = .ok
  · obtain ⟨msg, mem, hb, -, hm, he, rfl⟩ := exec_embed_next_ok h hok
    obtain ⟨hwritten, hkept⟩ := embedBits_eq_ok (State.chans_pos hb) he
    simp only [Nat.zero_add, State.length_frame hm] at hwritten hkept
    by_cases hx : ∃ k < s.required, x = k * s.chans.toNat
    · obtain ⟨k, hk, rfl⟩ := hx
      obtain ⟨v, hv, hv'⟩ := hwritten k _ (List.getElem?_eq_getElem (by rwa [State.length_frame hm]))
      exact .inr ⟨k, v, _, hk, rfl, hv, hv'⟩
    · exact .inl (hkept x fun k hk heq => hx ⟨k, hk, heq⟩)
  · obtain ⟨e, ds, idx, rfl⟩ := exec_next_failed h hok
    exact .inl rfl

/-- `set_lsb` keeps bits 15 to 1 (R101). -/
theorem setLsb_extractLsb'_high (p : Sample) (b : Bit) :
    (setLsb p b).extractLsb' 1 15 = p.extractLsb' 1 15 := by
  apply BitVec.eq_of_getLsbD_eq
  intro i hi
  rw [BitVec.getLsbD_extractLsb', BitVec.getLsbD_extractLsb', setLsb_getLsbD p b (1 + i) (by omega)]

/-- Settles O45: `EMBED` sample by sample (`exec_embed_sample_cases`), `EXTRACT` and `DECF` by their write sets
(`exec_eq_overwrite`), a failed command as a whole (`exec_next_failed`). -/
theorem untouchedCells : Obligations.UntouchedCells := by
  refine ⟨fun s t h => ⟨fun x hx => ?_, fun x v v' hv hv' => ?_⟩, fun s t h => ?_, fun i s t h herr => ?_⟩
  · obtain hsame | ⟨k, -, -, hk, hxk, -, -⟩ := exec_embed_sample_cases h x
    · exact hsame
    · exact absurd hxk (hx k hk)
  · obtain hsame | ⟨k, u, b, -, -, hu, hu'⟩ := exec_embed_sample_cases h x
    · rw [hsame, hv] at hv'
      cases hv'
      rfl
    · cases hu.symm.trans hv
      cases hu'.symm.trans hv'
      exact setLsb_extractLsb'_high v b
  · rcases h with h | h <;>
      exact ⟨(congrArg State.sMem (exec_eq_overwrite h)).trans rfl,
        (congrArg State.fMem (exec_eq_overwrite h)).trans rfl⟩
  · obtain ⟨e, ds, x, rfl⟩ := exec_next_failed h herr
    exact ⟨rfl, rfl, rfl⟩

/-! ## The host's cell port -/

/-- A host read of a written cell delivers its value (R53). -/
theorem State.collect_of_read {w : Nat} {mem : Memory w} {i : Nat} {v : BitVec w} (h : mem.read i = some v)
    (s : State) (wrap : BitVec w → ReadData) (sp : Space) :
    s.collect wrap (mem.fetch sp i) = .next (s.logRead (wrap v)) := by
  rw [Memory.fetch_eq_ok.mpr h]
  rfl

/-- Settles O54: a host write is one `MemWrite` (`Memory.read_write`), a host read one `MemRead`
(`State.collect_of_read`). -/
theorem cellPort : Obligations.CellPort := fun _ _ _ hb =>
  ⟨fun v h => ⟨_, step_cons_idle h hb, fun x => Memory.read_write _ _ x v⟩,
    fun v h => ⟨_, step_cons_idle h hb, fun x => Memory.read_write _ _ x v⟩,
    fun v h => ⟨_, step_cons_idle h hb, fun x => Memory.read_write _ _ x v⟩,
    fun _ h hv => (step_cons_idle h hb).trans (State.collect_of_read hv _ _ _),
    fun _ h hv => (step_cons_idle h hb).trans (State.collect_of_read hv _ _ _),
    fun _ h hv => (step_cons_idle h hb).trans (State.collect_of_read hv _ _ _)⟩

end Sys2Proof.Machine
end

section
/-!
Proofs of the statements about the command words and the command cycle (spec/30_encoding.md).
-/

namespace Sys2Proof

/-! ## The decoder by the fields of a word (R60, R64) -/

theorem zeroField_append_opcField (w : Word) : zeroField w ++ opcField w = w :=
  BitVec.extractLsb'_append_extractLsb'

theorem decode_eq_none_of_zeroField_ne {w : Word} (h : zeroField w ≠ 0#24) : decode w = none := if_neg h

theorem decode_eq_lookup {w : Word} {c : BitVec 8} (hz : zeroField w = 0#24) (hc : opcField w = c) :
    decode w = opcTable.lookup c := by
  rw [decode, if_pos hz, hc]

/-- The operation codes outside 1 to 6 are Illegal (R64). -/
theorem opcTable_lookup_eq_none {c : BitVec 8} (h : c.toNat = 0 ∨ 7 ≤ c.toNat) : opcTable.lookup c = none := by
  have codes : ∀ p ∈ opcTable, 1 ≤ p.1.toNat ∧ p.1.toNat ≤ 6 := by decide
  refine List.lookup_eq_none_iff.mpr fun p hp => bne_iff_ne.mpr ?_
  rintro rfl
  have := codes p hp
  omega

/-- Settles O2: the word's upper bits decide first, then `OPC` in the table. -/
theorem decodeByZeroAndOpc : Obligations.DecodeByZeroAndOpc := fun _ =>
  ⟨decode_eq_none_of_zeroField_ne, fun hz =>
    ⟨decode_eq_lookup hz, decode_eq_lookup hz, decode_eq_lookup hz, decode_eq_lookup hz, decode_eq_lookup hz,
      decode_eq_lookup hz, fun h => (decode_eq_lookup hz rfl).trans (opcTable_lookup_eq_none h)⟩⟩

/-! ## The decoder and the match values (R62) -/

/-- A command's match value is its operation code with `ZERO` = 0 above it (R60, R62). -/
theorem encode_of_mem_opcTable : ∀ p ∈ opcTable, encode p.2 = 0#24 ++ p.1 := by decide

theorem decode_encode : ∀ i : Instr, decode (encode i) = some i
  | .encf => Laws.DecodeEncode.encf rfl
  | .decf => Laws.DecodeEncode.decf rfl
  | .getlsb => Laws.DecodeEncode.getlsb rfl
  | .setlsb => Laws.DecodeEncode.setlsb rfl
  | .embed => Laws.DecodeEncode.embed rfl
  | .extract => Laws.DecodeEncode.extract rfl

/-- No word but its match value decodes to a command: `ZERO` is 0 and `OPC` is the command's entry in the
table, and the two fields are the whole word. -/
theorem encode_of_decode {w : Word} {i : Instr} (h : decode w = some i) : encode i = w := by
  have hz : zeroField w = 0#24 := by
    by_contra hne
    cases h.symm.trans (decode_eq_none_of_zeroField_ne hne)
  have hmem : (opcField w, i) ∈ opcTable := by
    obtain ⟨before, after, htable, -⟩ := List.lookup_eq_some_iff.mp ((decode_eq_lookup hz rfl).symm.trans h)
    exact htable ▸ List.mem_append_right before List.mem_cons_self
  calc encode i = 0#24 ++ opcField w := encode_of_mem_opcTable _ hmem
    _ = zeroField w ++ opcField w := by rw [hz]
    _ = w := zeroField_append_opcField w

theorem decode_eq_some_iff {w : Word} {i : Instr} : decode w = some i ↔ w = encode i :=
  ⟨fun h => (encode_of_decode h).symm, fun h => h ▸ decode_encode i⟩

/-- Settles O1: `decode_eq_some_iff` at each command, whose `encode` is the match value. -/
theorem commandWordIffMatchValue : Obligations.CommandWordIffMatchValue := fun _ =>
  ⟨decode_eq_some_iff, decode_eq_some_iff, decode_eq_some_iff, decode_eq_some_iff, decode_eq_some_iff,
    decode_eq_some_iff⟩

end Sys2Proof

namespace Sys2Proof.Machine

/-! ## The command cycle (R66) -/

/-- With `BUSY = 0` a step on a write to `CMD` is the command cycle (R66). -/
theorem step_command {s : State} {w : Word} {rest : List HostAction} (h : s.script = .wr 0 w :: rest)
    (hb : s.status.busy = false) : step s = { s with script := rest }.issue w :=
  (step_cons_idle h hb).trans (State.idleAction_command _ w)

/-- Settles O5: the command cycle of a word that decodes. -/
theorem stepRunsDecodedCommand : Obligations.StepRunsDecodedCommand := fun _ _ _ _ h hb hd =>
  (step_command h hb).trans (State.issue_legal hd _)

/-- A command that completes leaves `DONE = 1`, whatever its result (R22, R66). -/
theorem exec_done {i : Instr} {s t : State} (h : exec i s = .next t) : t.status.done = true := by
  rcases exec_next_cases h with ⟨-, rfl⟩ | ⟨-, rfl⟩ | ⟨-, -, rfl⟩ | ⟨msg, -, -, -, rfl⟩ | ⟨a, -, -, rfl⟩ |
    ⟨a, -, -, rfl⟩ | ⟨-, -, rfl⟩ | ⟨-, -, -, rfl⟩ | ⟨msg, mem, -, -, -, -, -, rfl⟩ | ⟨a, -, -, -, rfl⟩ |
    ⟨a, -, -, -, rfl⟩ <;> rfl

/-- The command cycle ends idle and done with an empty accumulator, and leaves the host's side alone (R66,
R24): a command by its legal `STATUS` and its write set, an illegal word by its one outcome. -/
theorem State.issue_idle_done {s t : State} {w : Word} (h : s.issue w = .next t) :
    t.status.busy = false ∧ t.status.done = true ∧ t.acc = [] ∧
      t.script = s.script ∧ t.reads = s.reads ∧ t.draws = s.draws := by
  cases hd : decode w with
  | some i =>
    rw [State.issue_legal hd] at h
    obtain ⟨hacc, hbusy, -⟩ := exec_acc_statusLegal h
    have hset := exec_eq_overwrite h
    exact ⟨hbusy, exec_done h, hacc, exec_script h, (congrArg State.reads hset).trans rfl,
      (congrArg State.draws hset).trans rfl⟩
  | none =>
    rw [State.issue_illegal hd] at h
    cases h
    exact ⟨rfl, rfl, rfl, rfl, rfl, rfl⟩

/-- Settles O8: the step is the command cycle of the state whose script has moved on. -/
theorem issuedCommandLeavesIdleAndDone : Obligations.IssuedCommandLeavesIdleAndDone :=
  fun _ _ _ _ h hb hstep => State.issue_idle_done ((step_command h hb).symm.trans hstep)

end Sys2Proof.Machine
end

section
/-!
Proofs of the statements about the frame codec (spec/40_frame_codec.md).
-/

namespace Sys2Proof.Machine

/-! ## The decoder's state machine (R94) -/

/-- Settles O23: the step from `Scanning` tests the last 16 bits (`termAt_iff`) before the bound. -/
theorem decoderStateMachine : Obligations.DecoderStateMachine := by
  refine ⟨fun maxBits => ?_, fun maxBits a b => ?_, fun _ _ _ => ⟨rfl, rfl⟩⟩
  · unfold Decoder.initial
    split <;> rfl
  · intro a' zeroRun
    have hrun : termAt a' a'.length = true ↔ zeroRun := termAt_iff le_rfl
    have hstep := Decoder.step_scanning maxBits a b
    exact ⟨fun h => hstep.trans (if_pos (hrun.mpr h)),
      fun h hmax => hstep.trans ((if_neg (mt hrun.mp h)).trans (if_pos hmax)),
      fun h hmax => hstep.trans ((if_neg (mt hrun.mp h)).trans (if_neg hmax))⟩

/-! ## Single bits of a byte -/

theorem extractLsb'_one_eq_ofBool (b : Byte) (i : Nat) : b.extractLsb' i 1 = BitVec.ofBool (b.getLsbD i) := by
  apply BitVec.eq_of_getLsbD_eq
  intro k hk
  obtain rfl : k = 0 := by omega
  simp

/-! ## Terminators and windows (R88) -/

/-- The test reads only the first `n` bits. -/
theorem termAt_take (a : List Bit) {m n : Nat} (h : n ≤ m) : termAt (a.take m) n = termAt a n := by
  simp only [termAt, List.take_take, min_eq_left h]

theorem getElem?_ne_zero_iff {a : List Bit} {k : Nat} (hk : k < a.length) :
    a[k]? ≠ some 0#1 ↔ a[k]? = some 1#1 := by
  rw [List.getElem?_eq_getElem hk]
  rcases bit_cases a[k] with e | e <;> simp [e]

/-- No terminator ends at `n` if and only if the window of 16 bits before `n`, where there is one, holds a one. -/
theorem termAt_eq_false_iff {a : List Bit} {n : Nat} (hn : n ≤ a.length) :
    termAt a n = false ↔ (16 ≤ n → ∃ k, n - 16 ≤ k ∧ k < n ∧ a[k]? = some 1#1) := by
  rw [← Bool.not_eq_true, termAt_iff hn, not_and]
  refine imp_congr_right fun _ => ?_
  simp only [not_forall, exists_prop]
  exact exists_congr fun k => and_congr_right fun _ => and_congr_right fun hk =>
    getElem?_ne_zero_iff (lt_of_lt_of_le hk hn)

theorem endsAtFirstTerminator_iff {bits : List Bit} : EndsAtFirstTerminator bits ↔
    termAt bits bits.length = true ∧ ∀ n, n < bits.length → termAt bits n = false := by
  rw [termAt_iff le_rfl, EndsAtFirstTerminator, and_assoc]
  refine and_congr_right fun _ => and_congr_right fun _ => forall_congr' fun n => ?_
  rw [forall_comm]
  exact imp_congr_right fun hn => (termAt_eq_false_iff (le_of_lt hn)).symm

theorem holdsNoTerminator_iff {bits : List Bit} :
    HoldsNoTerminator bits ↔ ∀ n, n ≤ bits.length → termAt bits n = false := by
  refine forall_congr' fun n => ?_
  rw [forall_comm]
  exact imp_congr_right fun hn => (termAt_eq_false_iff hn).symm

/-- A source that holds a terminator has a first one. -/
theorem exists_firstTerminator {bits : List Bit} {n : Nat} (hn : n ≤ bits.length) (ht : termAt bits n = true) :
    ∃ m ≤ n, EndsAtFirstTerminator (bits.take m) := by
  have hex : ∃ m, termAt bits m = true := ⟨n, ht⟩
  have hle : Nat.find hex ≤ n := Nat.find_min' hex ht
  refine ⟨Nat.find hex, hle, endsAtFirstTerminator_iff.mpr ?_⟩
  rw [List.length_take_of_le (hle.trans hn), termAt_take _ le_rfl]
  refine ⟨Nat.find_spec hex, fun i hi => ?_⟩
  rw [termAt_take _ (le_of_lt hi)]
  exact Bool.eq_false_iff.mpr (Nat.find_min hex hi)

section
variable {bits : List Bit} (h : EndsAtFirstTerminator bits)
include h

/-- What such a stream makes of a source: a scan of it that ends with `Found` (R90). -/
theorem EndsAtFirstTerminator.scanEnd {src : Nat → Except Fault Bit} {maxBits : Nat}
    (hsrc : ∀ k b, bits[k]? = some b → src k = .ok b) (hle : bits.length ≤ maxBits) :
    ScanEnd src maxBits ⟨.found, bits⟩ :=
  ⟨hle, hsrc, (endsAtFirstTerminator_iff.mp h).2, .inl ⟨rfl, (endsAtFirstTerminator_iff.mp h).1⟩⟩

/-- R95 (1): the bit before the terminator is a one, or the terminator would have ended one bit earlier. -/
theorem EndsAtFirstTerminator.last_payload_bit (hlt : 16 < bits.length) :
    bits[bits.length - 17]? = some 1#1 := by
  obtain ⟨-, hzero, hone⟩ := h
  obtain ⟨k, hk, hk', hbit⟩ := hone (bits.length - 1) (by omega) (by omega)
  rcases Nat.lt_or_ge k (bits.length - 16) with hlow | hhigh
  · rwa [show bits.length - 17 = k by omega]
  · rw [hzero k hhigh (by omega)] at hbit
    cases hbit

/-- R95 (3): each byte of the message is the 8 stream bits at its own position: the zeros that complete the last
group stand in the stream too, as bits of the terminator. -/
theorem EndsAtFirstTerminator.messageOf_byte {j : Nat} (hj : j < (bits.length - 16 + 7) / 8) :
    ∃ b, (messageOf .padZeroRight bits bits.length)[j]? = some b ∧
      ∀ k, k < 8 → bits[8 * j + k]? = some (b.extractLsb' (7 - k) 1) := by
  obtain ⟨hlen, hzero, -⟩ := h
  obtain ⟨b, hb, hbits⟩ := messageOf_padZeroRight_getElem? bits bits.length le_rfl j hj
  refine ⟨b, hb, fun k hk => ?_⟩
  have hin : 8 * j + k < bits.length := by omega
  have hbit : b.getLsbD (7 - k) = decide (bits[8 * j + k]? = some 1#1) := by
    rw [hbits k hk]
    rcases Nat.lt_or_ge (8 * j + k) (bits.length - 16) with hlow | hhigh
    · simp [hlow]
    · simp [hzero _ hhigh hin]
  rw [extractLsb'_one_eq_ofBool, hbit, List.getElem?_eq_getElem hin]
  rcases bit_cases bits[8 * j + k] with e | e <;> rw [e] <;> rfl

/-- R95 (3): the last byte holds the one before the terminator. -/
theorem EndsAtFirstTerminator.messageOf_last_ne_zero (hlt : 16 < bits.length) :
    (messageOf .padZeroRight bits bits.length)[(bits.length - 16 + 7) / 8 - 1]? ≠ some 0#8 := by
  intro hlast
  have hone := h.last_payload_bit hlt
  obtain ⟨b, hb, hbits⟩ := h.messageOf_byte (j := (bits.length - 16 + 7) / 8 - 1) (by omega)
  obtain rfl : b = 0#8 := Option.some.inj (hb.symm.trans hlast)
  rw [show bits.length - 17 = 8 * ((bits.length - 16 + 7) / 8 - 1) + (bits.length - 17) % 8 by omega,
    hbits _ (by omega), BitVec.extractLsb'_zero] at hone
  cases hone

end

/-- A source's first terminator ends beyond `i` if and only if every window up to there holds a one. -/
theorem EndsAtFirstTerminator.lt_iff {bits : List Bit} {m i : Nat} (h : EndsAtFirstTerminator (bits.take m))
    (hm : m ≤ bits.length) :
    i < m ↔ ∀ n, 16 ≤ n → n ≤ i → ∃ k, n - 16 ≤ k ∧ k < n ∧ bits[k]? = some 1#1 := by
  obtain ⟨hlen, hzero, hone⟩ := h
  rw [List.length_take_of_le hm] at hlen hzero hone
  refine ⟨fun hi n hn hni => ?_, fun hall => ?_⟩
  · obtain ⟨k, hk, hkn, hbit⟩ := hone n hn (by omega)
    exact ⟨k, hk, hkn, by rwa [List.getElem?_take_of_lt (by omega)] at hbit⟩
  · by_contra hi
    obtain ⟨k, hk, hkm, hbit⟩ := hall m hlen (by omega)
    have hz := hzero k hk hkm
    rw [List.getElem?_take_of_lt hkm, hbit] at hz
    cases hz

/-- What a stream that holds no terminator makes of a source of its length: an exhausted scan (R93). -/
theorem HoldsNoTerminator.scanEnd {bits : List Bit} (h : HoldsNoTerminator bits) {src : Nat → Except Fault Bit}
    (hsrc : ∀ k b, bits[k]? = some b → src k = .ok b) : ScanEnd src bits.length ⟨.exhausted, bits⟩ :=
  ⟨le_rfl, hsrc, fun n hn => holdsNoTerminator_iff.mp h n (le_of_lt hn),
    .inr ⟨rfl, rfl, holdsNoTerminator_iff.mp h _ le_rfl⟩⟩

/-- A scan that ended with `Found` has consumed a stream up to its first terminator (R90). -/
theorem ScanEnd.endsAtFirstTerminator {src : Nat → Except Fault Bit} {maxBits : Nat} {a : List Bit}
    (h : ScanEnd src maxBits ⟨.found, a⟩) : EndsAtFirstTerminator a := by
  obtain ⟨-, ht⟩ | ⟨hs, -⟩ := h.outcome
  · exact endsAtFirstTerminator_iff.mpr ⟨ht, h.first⟩
  · cases hs

/-! ## What a decoder delivers (R92) -/

theorem State.decodeDone_mMem_read (s : State) (a : List Bit) (j : Nat) : (s.decodeDone a).mMem.read j =
    if j < (a.length - 16 + 7) / 8 then (messageOf .padZeroRight a a.length)[j]? else s.mMem.read j := by
  rw [State.decodeDone, Memory.read_writeFrom, length_messageOf_padZeroRight]
  simp only [Nat.zero_le, true_and, Nat.zero_add, Nat.sub_zero]

section
variable {a : List Bit} (hlt : a.length < 2 ^ 32) (s : State)
include hlt

theorem State.decodeDone_idx_toNat : (s.decodeDone a).idx.toNat = a.length :=
  (BitVec.toNat_ofNat _ _).trans (Nat.mod_eq_of_lt hlt)

theorem State.decodeDone_mlen_toNat : (s.decodeDone a).mlen.toNat = (a.length - 16 + 7) / 8 := by
  rw [State.decodeDone, length_messageOf_padZeroRight, BitVec.toNat_ofNat, Nat.mod_eq_of_lt (by omega)]

/-- R92: the message up to the first terminator goes to `M` and its length to `MLEN`. -/
theorem State.decodeDone_delivers (h : EndsAtFirstTerminator a) :
    DeliversMessage a s.mMem (s.decodeDone a).mMem (s.decodeDone a).mlen.toNat := by
  rw [DeliversMessage, s.decodeDone_mlen_toNat hlt]
  refine ⟨rfl, fun j hj => ?_, fun j hj => ?_⟩
  · obtain ⟨b, hb, hbits⟩ := h.messageOf_byte hj
    refine ⟨b, by rw [State.decodeDone_mMem_read, if_pos hj, hb], fun k hk => ?_⟩
    split
    · rw [List.getD_eq_getElem?_getD, hbits k hk, Option.getD_some]
    · obtain ⟨-, hzero, -⟩ := h
      have hz := hzero (8 * j + k) (by omega) (by omega)
      rw [hbits k hk] at hz
      exact Option.some.inj hz
  · rw [State.decodeDone_mMem_read, if_neg (by omega)]

end

/-- The frame in `F` as a bit source. -/
theorem State.frameBit_of_stream {s : State} {bits : List Bit}
    (h : ∀ k, k < bits.length → s.fMem.read k = bits[k]?) (k : Nat) (b : Bit) (hb : bits[k]? = some b) :
    s.frameBit k = .ok b :=
  State.frameBit_eq_ok.mpr ((h k (List.getElem?_eq_some_iff.mp hb).1).trans hb)

/-- Settles O17: the stream is an end of scan with `Found`, and `State.decodeDone_delivers` says what it leaves. -/
theorem decfDeliversMessage : Obligations.DecfDeliversMessage := by
  intro s bits hread hle hend
  have hscan : ScanEnd s.frameBit s.flen.toNat ⟨.found, bits⟩ :=
    hend.scanEnd (State.frameBit_of_stream hread) hle
  have hlt : bits.length < 2 ^ 32 := lt_of_le_of_lt hle s.flen.isLt
  exact ⟨s.decodeDone bits, exec_decf_found hscan, s.decodeDone_idx_toNat hlt, s.decodeDone_delivers hlt hend, rfl⟩

/-- Settles O18: the stream is an exhausted end of scan. -/
theorem decfIncomplete : Obligations.DecfIncomplete := by
  intro s bits hlen hread hnone
  have hscan : ScanEnd s.frameBit s.flen.toNat ⟨.exhausted, bits⟩ :=
    hlen ▸ hnone.scanEnd (State.frameBit_of_stream hread)
  rw [exec_decf_exhausted hscan, hlen, BitVec.ofNat_toNat, BitVec.setWidth_eq]
  rfl

/-- Settles O20: R95 (1) to (3) of the stream that the scan has consumed, which is the frame as it stands in `F`. -/
theorem foundMessageFacts : Obligations.FoundMessageFacts := by
  intro s t h hok
  obtain ⟨a, hscan, rfl⟩ | ⟨a, -, rfl⟩ := exec_decf_next h
  · have hend := hscan.endsAtFirstTerminator
    have hlt : a.length < 2 ^ 32 := lt_of_le_of_lt hscan.le s.flen.isLt
    have hread : ∀ k b, a[k]? = some b → s.fMem.read k = some b :=
      fun k b hb => State.frameBit_eq_ok.mp (hscan.consumed k b hb)
    simp only [s.decodeDone_idx_toNat hlt, s.decodeDone_mlen_toNat hlt]
    refine ⟨hscan.le_length_of_found, hscan.le, fun h16 => hread _ _ (hend.last_payload_bit h16), trivial,
      fun j k hj hk => ?_, fun b hpos hb => ?_⟩
    · obtain ⟨b, hb, hbits⟩ := hend.messageOf_byte hj
      exact ⟨b, by rw [State.decodeDone_mMem_read, if_pos hj, hb], hread _ _ (hbits k hk)⟩
    · rw [State.decodeDone_mMem_read, if_pos (by omega)] at hb
      rintro rfl
      exact hend.messageOf_last_ne_zero (by omega) hb
  · cases hok

/-! ## What `ENCF` writes (R83, R86) -/

theorem State.encfDone_fMem_read {s : State} {msg : List Byte} (h : s.message = .ok msg) {k : Nat}
    (hk : k < s.required) : (s.encfDone msg).fMem.read k = (encodeFrame msg)[k]? := by
  rw [State.encfDone, Memory.read_writeFrom, if_pos (by rw [State.length_frame h]; omega), Nat.sub_zero]

/-- Settles O15: what `encode_frame` puts at each position is what `ENCF` puts into that cell of `F`. -/
theorem encfWritesTheFrame : Obligations.EncfWritesTheFrame := by
  intro s hmlen hwritten
  obtain ⟨msg, hm⟩ := State.message_isOk fun k hk => Option.isSome_iff_exists.mpr (hwritten k hk)
  obtain ⟨hlen, hcells⟩ := State.message_eq_ok.mp hm
  have hreq : s.required = 8 * s.mlen.toNat + 16 := rfl
  have hexec := exec_encf_ok (by omega) hm
  have hflen : (s.encfDone msg).flen.toNat = s.required := State.encfDone_idx_toNat (by omega) msg
  refine ⟨s.encfDone msg, hexec, hflen, rfl, fun j b k hj hb hk => ?_, fun k hk => ?_, fun x hx => ?_, rfl⟩
  · rw [State.encfDone_fMem_read hm (by omega)]
    exact encodeFrame_payload msg j k b ((hcells j hj).symm.trans hb) hk
  · rw [State.encfDone_fMem_read hm (by omega), ← hlen]
    exact encodeFrame_terminator msg k hk
  · exact exec_encf_fMem_read_of_le hexec (by omega)

/-- Settles O16: `ENCF` compares `8*MLEN + 16` with the largest 32-bit number. -/
theorem encfFailsWhenFrameTooLong : Obligations.EncfFailsWhenFrameTooLong := by
  intro s
  have hreq : s.required = 8 * s.mlen.toNat + 16 := rfl
  refine ⟨fun h => exec_encf_overflow (by omega), fun h => ⟨by omega, fun t ht => ?_⟩⟩
  rcases exec_encf_cases s with ⟨hover, -⟩ | ⟨msg, -, -, e⟩ | ⟨r, -, -, e⟩
  · omega
  · rw [e] at ht
    cases ht
    rfl
  · rw [e] at ht
    cases ht

/-! ## Decoding an encoded frame (R95, R96) -/

/-- Two bytes with the same 8 bits, in the order of R80, are the same. -/
theorem byte_eq_of_bits {b c : Byte} (h : ∀ k, k < 8 → b.extractLsb' (7 - k) 1 = c.extractLsb' (7 - k) 1) :
    b = c := by
  refine BitVec.eq_of_getLsbD_eq fun i hi => ?_
  have hbit := congrArg (fun x => x.getLsbD 0) (h (7 - i) (by omega))
  simpa [show 7 - (7 - i) = i by omega] using hbit

/-- R95 (4): decoding a frame up to its first terminator gives the message back if and only if that terminator
ends beyond the payload and 8 zeros, so that no byte is missing. -/
theorem messageOf_encodeFrame_eq_iff {msg : List Byte} {m : Nat}
    (h : EndsAtFirstTerminator ((encodeFrame msg).take m)) (hm : m ≤ (encodeFrame msg).length) :
    messageOf .padZeroRight ((encodeFrame msg).take m) ((encodeFrame msg).take m).length = msg ↔
      8 * msg.length + 8 < m := by
  have hlen := length_messageOf_padZeroRight ((encodeFrame msg).take m) ((encodeFrame msg).take m).length
  have hbyte := fun j => h.messageOf_byte (j := j)
  have h16 := h.1
  rw [List.length_take_of_le hm] at hlen h16 hbyte ⊢
  rw [length_encodeFrame] at hm
  refine ⟨fun heq => ?_, fun hlt => ?_⟩
  · rw [heq] at hlen
    omega
  · have hlen' : (m - 16 + 7) / 8 = msg.length := by omega
    rw [hlen'] at hlen hbyte
    refine List.ext_getElem? fun j => ?_
    rcases Nat.lt_or_ge j msg.length with hj | hj
    · obtain ⟨b, hb, hbits⟩ := hbyte j hj
      rw [hb, List.getElem?_eq_getElem hj]
      refine congrArg some (byte_eq_of_bits fun k hk => Option.some.inj ?_)
      rw [← hbits k hk, List.getElem?_take_of_lt (by omega)]
      exact encodeFrame_payload msg j k _ (List.getElem?_eq_getElem hj) hk
    · rw [List.getElem?_eq_none (by omega), List.getElem?_eq_none hj]

/-- A decoder returns the message of `s` if and only if that is what it makes of the bits it has consumed. -/
theorem State.decodeDone_returns_iff {s : State} {msg : List Byte} (hm : s.message = .ok msg) (t : State)
    {a : List Bit} (hlt : a.length < 2 ^ 32) :
    ((t.decodeDone a).mlen = s.mlen ∧
        ∀ j, j < s.mlen.toNat → (t.decodeDone a).mMem.read j = s.mMem.read j) ↔
      messageOf .padZeroRight a a.length = msg := by
  obtain ⟨hlen, hcells⟩ := State.message_eq_ok.mp hm
  have hlenA := length_messageOf_padZeroRight a a.length
  refine ⟨fun ⟨hmlen, hread⟩ => ?_, fun heq => ?_⟩
  · have hn := t.decodeDone_mlen_toNat hlt
    rw [hmlen] at hn
    refine List.ext_getElem? fun j => ?_
    rcases Nat.lt_or_ge j s.mlen.toNat with hj | hj
    · rw [← hcells j hj, ← hread j hj, State.decodeDone_mMem_read, if_pos (by omega)]
    · rw [List.getElem?_eq_none (by omega), List.getElem?_eq_none (by omega)]
  · rw [heq, hlen] at hlenA
    refine ⟨BitVec.eq_of_toNat_eq ?_, fun j hj => ?_⟩
    · rw [t.decodeDone_mlen_toNat hlt, hlenA]
    · rw [State.decodeDone_mMem_read, if_pos (by omega), heq, hcells j hj]

/-- `DECF` of what `ENCF` wrote ends at the frame's first terminator, no later than one that is known. -/
theorem exec_decf_encfDone {s : State} {msg : List Byte} (hr : s.required < 2 ^ 32) (hm : s.message = .ok msg)
    {n : Nat} (hn : n ≤ (encodeFrame msg).length) (ht : termAt (encodeFrame msg) n = true) :
    ∃ m ≤ n, EndsAtFirstTerminator ((encodeFrame msg).take m) ∧
      exec .decf (s.encfDone msg) = .next ((s.encfDone msg).decodeDone ((encodeFrame msg).take m)) := by
  obtain ⟨m, hmn, hend⟩ := exists_firstTerminator hn ht
  have hlen := State.length_frame hm
  have hflen : (s.encfDone msg).flen.toNat = s.required := State.encfDone_idx_toNat hr msg
  have hread : ∀ k, k < (encodeFrame msg).length → (s.encfDone msg).fMem.read k = (encodeFrame msg)[k]? :=
    fun k hk => State.encfDone_fMem_read hm (by omega)
  have hsrc := State.frameBit_of_stream hread
  refine ⟨m, hmn, hend, exec_decf_found (hend.scanEnd (fun k b hb => hsrc k b ?_) ?_)⟩
  · rwa [List.getElem?_take_of_lt] at hb
    exact (List.getElem?_eq_some_iff.mp hb).1.trans_le (List.length_take_le _ _)
  · rw [List.length_take_of_le (by omega)]
    omega

/-- The frame ends in its terminator (R81). -/
theorem termAt_encodeFrame (msg : List Byte) : termAt (encodeFrame msg) (encodeFrame msg).length = true := by
  rw [termAt_iff le_rfl, length_encodeFrame]
  refine ⟨by omega, fun k hk hk' => ?_⟩
  rw [show k = 8 * msg.length + (k - 8 * msg.length) by omega]
  exact encodeFrame_terminator msg _ (by omega)

/-- R96: two null bytes at `j` and `j + 1` are a terminator. -/
theorem termAt_encodeFrame_of_null {msg : List Byte} {j : Nat} (h0 : msg[j]? = some 0#8)
    (h1 : msg[j + 1]? = some 0#8) : termAt (encodeFrame msg) (8 * j + 16) = true := by
  have hj := (List.getElem?_eq_some_iff.mp h1).1
  rw [termAt_iff (by rw [length_encodeFrame]; omega)]
  refine ⟨by omega, fun k hk hk' => ?_⟩
  rcases Nat.lt_or_ge k (8 * j + 8) with hlow | hhigh
  · have hbit := encodeFrame_payload msg j (k - 8 * j) _ h0 (by omega)
    rwa [show 8 * j + (k - 8 * j) = k by omega, BitVec.extractLsb'_zero] at hbit
  · have hbit := encodeFrame_payload msg (j + 1) (k - 8 * (j + 1)) _ h1 (by omega)
    rwa [show 8 * (j + 1) + (k - 8 * (j + 1)) = k by omega, BitVec.extractLsb'_zero] at hbit

/-- Settles O21: `DECF` ends at the frame's first terminator; both sides say that this lies beyond the payload and
8 zeros. -/
theorem encfDecfRoundTrip : Obligations.EncfDecfRoundTrip := by
  intro s t h hok
  obtain ⟨msg, hr, hm, rfl⟩ := exec_encf_next_ok h hok
  obtain ⟨m, hle, hend, hexec⟩ := exec_decf_encfDone hr hm le_rfl (termAt_encodeFrame msg)
  have hlen := State.length_frame hm
  have hmsg := (State.message_eq_ok.mp hm).1
  have hreq : s.required = 8 * s.mlen.toNat + 16 := rfl
  have hlt : ((encodeFrame msg).take m).length < 2 ^ 32 := by rw [List.length_take_of_le hle]; omega
  have hreturns := (State.decodeDone_returns_iff hm (s.encfDone msg) hlt).trans
    ((messageOf_encodeFrame_eq_iff hend hle).trans (hend.lt_iff hle))
  rw [hmsg] at hreturns
  simp only [hexec, Host.Outcome.next.injEq, exists_eq_left']
  refine (and_iff_right rfl).trans (hreturns.trans ?_)
  refine forall_congr' fun n => imp_congr_right fun _ => imp_congr_right fun hn =>
    exists_congr fun k => and_congr_right fun _ => and_congr_right fun hk => ?_
  rw [State.encfDone_fMem_read hm (by omega)]

/-- Settles O22: the null bytes are a terminator, so the first one ends no later. -/
theorem nullBytesTruncateMessage : Obligations.NullBytesTruncateMessage := by
  intro s t j h hok hj h0 h1
  obtain ⟨msg, hr, hm, rfl⟩ := exec_encf_next_ok h hok
  obtain ⟨hlen, hcells⟩ := State.message_eq_ok.mp hm
  rw [hcells j (by omega)] at h0
  rw [hcells (j + 1) hj] at h1
  have hframe := State.length_frame hm
  have hreq : s.required = 8 * s.mlen.toNat + 16 := rfl
  obtain ⟨m, hle, -, hexec⟩ := exec_decf_encfDone hr hm (by omega) (termAt_encodeFrame_of_null h0 h1)
  have hm' : ((encodeFrame msg).take m).length = m := List.length_take_of_le (by omega)
  refine ⟨_, hexec, rfl, ?_, ?_⟩
  · rw [State.decodeDone_idx_toNat (by omega), hm']
    exact hle
  · rw [State.decodeDone_mlen_toNat (by omega), hm']
    omega

/-! ## The reference datapath (R97) -/

/-- The datapath and the decoder, having consumed the same bits `a` of a stream without a terminator so far, go on
in step: the datapath's registers track `a`, and its `Found` is the terminator test. -/
theorem Datapath.Tracks.run_eq_scan (bits : List Bit) : ∀ (rest a : List Bit) (d : Datapath), d.Tracks a →
    a ++ rest = bits →
    ∃ e, Decoder.scan (fun k => .ok (bits.getD k 0#1)) bits.length rest.length
        ⟨if rest = [] then .exhausted else .scanning, a⟩ = .ok e ∧
      (e.state = .found ∨ e.state = .exhausted) ∧
      d.run rest =
        if e.state = .found then some (e.acc.length, messageOf .padZeroRight e.acc e.acc.length) else none
  | [], a, d, _, _ => ⟨⟨.exhausted, a⟩, rfl, .inr rfl, rfl⟩
  | b :: rest, a, d, htr, hbits => by
    have hnext := htr.shift b
    have hbit : bits.getD a.length 0#1 = b := by simp [← hbits]
    have hlen : (a ++ [b]).length = bits.length ↔ rest = [] := by simp [← hbits]
    rw [if_neg (List.cons_ne_nil b rest), List.length_cons]
    simp only [Decoder.scan, hbit, Decoder.step_scanning, Datapath.run, hnext.found_iff]
    by_cases hfound : termAt (a ++ [b]) (a ++ [b]).length = true
    · rw [if_pos hfound, if_pos hfound, hnext.n, hnext.message_eq]
      exact ⟨⟨.found, a ++ [b]⟩, by cases rest.length <;> rfl, .inl rfl, rfl⟩
    · have hstate : (if (a ++ [b]).length = bits.length then Decoder.mk .exhausted (a ++ [b])
          else ⟨.scanning, a ++ [b]⟩) = ⟨if rest = [] then .exhausted else .scanning, a ++ [b]⟩ := by
        simp only [hlen]
        split <;> rfl
      rw [if_neg hfound, if_neg hfound, hstate]
      exact run_eq_scan bits rest (a ++ [b]) _ hnext (by simpa using hbits)

/-- Settles O24: both start at the same point, before the first bit. -/
theorem datapathRefinesDecoder : Obligations.DatapathRefinesDecoder := by
  intro bits
  have h := Datapath.initial_tracks.run_eq_scan bits bits [] _ rfl
  simpa [decodeFrame, Decoder.initial] using h

/-! ## The completions of a short last group (U5) -/

/-- Dropping the last group leaves the whole groups. -/
theorem messageOf_drop (a : List Bit) (n : Nat) : messageOf .drop a n =
    (List.range ((n - 16) / 8)).map fun j => BitVec.ofNat 8 (groupValue a (8 * j) 8) := ite_self _

theorem length_messageOf_drop (a : List Bit) (n : Nat) : (messageOf .drop a n).length = (n - 16) / 8 := by
  rw [messageOf_drop, List.length_map, List.length_range]

theorem messageOf_of_no_short_group (p : TailPolicy) (a : List Bit) {n : Nat} (h : (n - 16) % 8 = 0) :
    messageOf p a n = messageOf .drop a n := (if_pos h).trans (messageOf_drop a n).symm

theorem messageOf_padZeroRight_of_short_group (a : List Bit) {n : Nat} (h : (n - 16) % 8 ≠ 0) :
    messageOf .padZeroRight a n = messageOf .drop a n ++
      [BitVec.ofNat 8 (groupValue a (8 * ((n - 16) / 8)) ((n - 16) % 8) * 2 ^ (8 - (n - 16) % 8))] := by
  rw [messageOf_drop]
  exact if_neg h

theorem messageOf_zeroExtendLeft_of_short_group (a : List Bit) {n : Nat} (h : (n - 16) % 8 ≠ 0) :
    messageOf .zeroExtendLeft a n = messageOf .drop a n ++
      [BitVec.ofNat 8 (groupValue a (8 * ((n - 16) / 8)) ((n - 16) % 8))] := by
  rw [messageOf_drop]
  exact if_neg h

theorem ofNat_mul_two_pow (v k : Nat) : BitVec.ofNat 8 (v * 2 ^ k) = BitVec.ofNat 8 v <<< k := by
  apply BitVec.eq_of_toNat_eq
  rw [BitVec.toNat_shiftLeft, Nat.shiftLeft_eq, BitVec.toNat_ofNat, BitVec.toNat_ofNat, Nat.mod_mul_mod]

/-- Bit `r - 1 - k` of a group of `r` bits is the `k`-th of them (R91). -/
theorem groupValue_testBit {a : List Bit} {start r k : Nat} (hle : start + r ≤ a.length) (hk : k < r) :
    (groupValue a start r).testBit (r - 1 - k) = decide (a[start + k]? = some 1#1) := by
  have hlen : ((a.drop start).take r).length = r := by simp; omega
  rw [groupValue, bitsValue_testBit _ _ (by omega), hlen, show r - 1 - (r - 1 - k) = k by omega,
    getElem?_group _ _ _ _ hk]

/-- Settles O25: each policy's message is the whole groups, followed by what it makes of a short one. -/
theorem tailPoliciesCompared : Obligations.TailPoliciesCompared := by
  intro a n h16 hn q r pad dropped short
  have hdropped : dropped.length = q := length_messageOf_drop a n
  refine ⟨fun hr => ?_, fun hr => ?_⟩
  · have hpad : pad = dropped := messageOf_of_no_short_group _ a hr
    exact ⟨hpad.symm, (messageOf_of_no_short_group _ a hr).trans hpad.symm, hpad ▸ hdropped⟩
  · have hr8 : r < 8 := Nat.mod_lt _ (by omega)
    have hlt : groupValue a (8 * q) r < 2 ^ r := groupValue_lt a (8 * q) r
    have hpad : pad = dropped ++ [BitVec.ofNat 8 (groupValue a (8 * q) r) <<< (8 - r)] :=
      (messageOf_padZeroRight_of_short_group a hr).trans (by rw [ofNat_mul_two_pow])
    have hshort : short = dropped ++ [BitVec.ofNat 8 (groupValue a (8 * q) r)] :=
      messageOf_zeroExtendLeft_of_short_group a hr
    have htoNat : (BitVec.ofNat 8 (groupValue a (8 * q) r)).toNat = groupValue a (8 * q) r :=
      (BitVec.toNat_ofNat _ _).trans (Nat.mod_eq_of_lt (hlt.trans_le (Nat.pow_le_pow_right (by omega) (by omega))))
    rw [hpad, hshort]
    refine ⟨by simp [hdropped], hdropped, by simp [hdropped], List.take_left' hdropped, List.take_left' hdropped,
      BitVec.ofNat 8 (groupValue a (8 * q) r), ?_, ?_, htoNat.trans_lt hlt, fun k hk => ?_⟩
    · simp [← hdropped]
    · simp [← hdropped]
    · rw [BitVec.getLsbD, htoNat]
      exact groupValue_testBit (by omega) hk

end Sys2Proof.Machine
end

section
/-!
Proofs of the statements about the sample bit accessor (spec/41_sample_bit_accessor.md).
-/

namespace Sys2Proof.Machine

/-! ## The accessor on patterns: a pattern is its bits 15 to 1 followed by its bit 0 (R100, R101) -/

theorem extractLsb'_high_append_getLsb (p : Sample) : p.extractLsb' 1 15 ++ getLsb p = p := by
  rw [getLsb_eq_extract]
  exact BitVec.extractLsb'_append_extractLsb'

theorem setLsb_eq_append (p : Sample) (b : Bit) : setLsb p b = p.extractLsb' 1 15 ++ b := by
  rw [← extractLsb'_high_append_getLsb (setLsb p b), setLsb_extractLsb'_high, getLsb_setLsb]

theorem setLsb_getLsb (p : Sample) : setLsb p (getLsb p) = p :=
  (setLsb_eq_append p _).trans (extractLsb'_high_append_getLsb p)

theorem setLsb_setLsb (p : Sample) (b c : Bit) : setLsb (setLsb p b) c = setLsb p c := by
  rw [setLsb_eq_append, setLsb_extractLsb'_high, ← setLsb_eq_append]

theorem getLsb_toNat (p : Sample) : (getLsb p).toNat = p.toNat &&& 0x0001 := by
  rw [getLsb_eq_extract, BitVec.extractLsb'_toNat, Nat.shiftRight_zero, pow_one, Nat.and_one_is_mod]

theorem setLsb_toNat (p : Sample) (b : Bit) : (setLsb p b).toNat = (p.toNat &&& 0xFFFE) ||| b.toNat := by
  rw [setLsb, BitVec.toNat_or, BitVec.toNat_and, BitVec.toNat_setWidth_of_le (by decide)]
  rfl

/-! ## The signed and the unsigned view of a sample (R6) -/

theorem sint16_eq_ite (p : Sample) :
    sint16 p = if p.toNat < 32768 then (p.toNat : Int) else (p.toNat : Int) - 65536 := by
  rw [sint16, BitVec.toInt_eq_toNat_cond]
  split_ifs <;> omega

/-- The signed value of a pattern: bits 15 to 1 weigh 2 each and carry the sign, bit 0 weighs 1. -/
theorem sint16_append (hi : BitVec 15) (b : Bit) : sint16 (hi ++ b) = 2 * hi.toInt + b.toNat :=
  BitVec.toInt_append

section
variable {s : Int} (hlo : -32768 ≤ s) (hhi : s ≤ 32767)
include hlo hhi

theorem toNat_uint16 : (uint16 s).toNat = (if 0 ≤ s then s else s + 65536).toNat := by
  rw [uint16, BitVec.toNat_ofInt]
  split_ifs <;> omega

theorem sint16_uint16 : sint16 (uint16 s) = s :=
  BitVec.toInt_ofInt_eq_self (by decide) hlo (by omega)

/-- A sample is twice the signed value of its bits 15 to 1, plus its bit 0. -/
theorem eq_two_mul_high_add_getLsbSigned :
    s = 2 * ((uint16 s).extractLsb' 1 15).toInt + (getLsbSigned s).toNat := by
  conv_lhs => rw [← sint16_uint16 hlo hhi, ← extractLsb'_high_append_getLsb (uint16 s), sint16_append]
  rfl

/-- Bits 15 to 1 of a sample, as a signed value, are its half rounded down. -/
theorem toInt_extractLsb'_high_uint16 : ((uint16 s).extractLsb' 1 15).toInt = s / 2 := by
  have := eq_two_mul_high_add_getLsbSigned hlo hhi
  have := (getLsbSigned s).isLt
  omega

theorem getLsbSigned_toNat : ((getLsbSigned s).toNat : Int) = s - 2 * (s / 2) := by
  have := eq_two_mul_high_add_getLsbSigned hlo hhi
  rw [toInt_extractLsb'_high_uint16 hlo hhi] at this
  omega

theorem setLsbSigned_eq (b : Bit) : setLsbSigned s b = 2 * (s / 2) + b.toNat := by
  rw [setLsbSigned, setLsb_eq_append, sint16_append, toInt_extractLsb'_high_uint16 hlo hhi]

/-- Setting bit 0 changes a sample by the difference of the new bit and the old one. -/
theorem setLsbSigned_sub_self (b : Bit) : setLsbSigned s b - s = b.toNat - s % 2 := by
  rw [setLsbSigned_eq hlo hhi]
  omega

end

theorem uint16_setLsbSigned (s : Int) (b : Bit) : uint16 (setLsbSigned s b) = setLsb (uint16 s) b :=
  BitVec.ofInt_toInt

theorem getLsbSigned_setLsbSigned (s : Int) (b : Bit) : getLsbSigned (setLsbSigned s b) = b := by
  rw [getLsbSigned, uint16_setLsbSigned, getLsb_setLsb]

/-! ## The statements -/

/-- Settles O9: the mask `0x0001` on the pattern, whose unsigned value is `uint16(s)`. -/
theorem getLsbIsBitZero : Obligations.GetLsbIsBitZero :=
  ⟨getLsb_eq_extract, fun s hlo hhi => by rw [getLsbSigned, getLsb_toNat, toNat_uint16 hlo hhi]⟩

/-- Settles O10: the mask and the OR on the pattern's unsigned value, then the signed view of the result. -/
theorem setLsbReplacesBitZero : Obligations.SetLsbReplacesBitZero := by
  refine ⟨fun s hlo hhi b => ?_, fun p b => ⟨setLsb_extractLsb'_high p b, ?_⟩⟩
  · rw [setLsbSigned, sint16_eq_ite, setLsb_toNat, toNat_uint16 hlo hhi]
  · rw [← getLsb_eq_extract, getLsb_setLsb]

/-- Settles O11: the first four laws hold of the patterns; the others are arithmetic from
`set_lsb(s, b) = 2 * floor(s / 2) + b`. -/
theorem accessorLaws : Obligations.AccessorLaws := by
  intro s hlo hhi b c
  have hdiff := setLsbSigned_sub_self hlo hhi b
  have hbit : b.toNat < 2 := b.isLt
  have hzero : b = 0#1 ↔ b.toNat = 0 := BitVec.toNat_eq
  have hone : b = 1#1 ↔ b.toNat = 1 := BitVec.toNat_eq
  refine ⟨getLsbSigned_setLsbSigned s b, ?roundTrip, ?overwrite, ?highBits, getLsbSigned_toNat hlo hhi,
    setLsbSigned_eq hlo hhi b, ?minusOne, ?plusOne, ?change, ?lower, ?upper⟩
  case roundTrip => rw [setLsbSigned, getLsbSigned, setLsb_getLsb, sint16_uint16 hlo hhi]
  case overwrite => rw [setLsbSigned, uint16_setLsbSigned, setLsb_setLsb, ← setLsbSigned]
  case highBits => rw [uint16_setLsbSigned, setLsb_extractLsb'_high]
  case minusOne => rw [hdiff, hzero]; omega
  case plusOne => rw [hdiff, hone]; omega
  case change => omega
  case lower => exact BitVec.le_toInt _
  case upper => exact Int.le_of_lt_add_one BitVec.toInt_lt

/-- Settles O12: the table by evaluation, the round trips from the general one. -/
theorem accessorEdgeValues : Obligations.AccessorEdgeValues :=
  ⟨by decide, by decide, by decide, by decide, by decide, fun s _ b => getLsbSigned_setLsbSigned s b⟩

/-- Settles O13: the outcome of `GETLSB`, whose mask is bit 0. -/
theorem getlsbReadsBitZero : Obligations.GetlsbReadsBitZero :=
  ⟨decode_encode .getlsb, fun s => by rw [exec_getlsb, getLsb_eq_extract]⟩

/-- Settles O14: the outcome of `SETLSB`. -/
theorem setlsbWritesBitZero : Obligations.SetlsbWritesBitZero :=
  ⟨decode_encode .setlsb, exec_setlsb⟩

end Sys2Proof.Machine
end

section
/-!
Proofs of the statements about `EMBED` (spec/42_embed.md): the two checks before it, what it writes, and that a
second run writes nothing new.
-/

namespace Sys2Proof.Machine

/-! ## The two checks before the first access (R111, R112) -/

/-- A buffer is well-formed when it is a whole number of audio frames of at least one channel (R111). -/
theorem State.malformed_eq_false_iff (s : State) :
    s.malformed = false ↔ s.chans.toNat ≠ 0 ∧ s.slen.toNat % s.chans.toNat = 0 := by
  rw [← Bool.not_eq_true, s.malformed_iff, not_or, not_not]

/-- Settles O27: the capacity check (`exec_embed_capacity`), on natural numbers. -/
theorem embedCapacityExceeded : Obligations.EmbedCapacityExceeded := fun s hchans hmod hcap =>
  exec_embed_capacity (s.malformed_eq_false_iff.mpr ⟨hchans, hmod⟩) hcap

/-- Settles O26: the malformed check of both commands; an empty buffer passes it and has capacity 0. -/
theorem malformedBufferRejected : Obligations.MalformedBufferRejected := by
  refine fun s => ⟨fun hbad => ?_, fun hslen hchans => ?_⟩
  · have hmal : s.malformed = true := s.malformed_iff.mpr hbad
    exact ⟨exec_embed_malformed hmal, exec_extract_malformed hmal⟩
  · exact embedCapacityExceeded s (by omega) (by rw [hslen, Nat.zero_mod]) (by rw [hslen, Nat.zero_div]; omega)

/-! ## Counts (R113) -/

/-- The last sample that `EMBED` can reach stands one audio frame before the end of the buffer (R113). -/
theorem State.embed_index_le {s : State} {i : Nat} (hi : i < s.available) :
    i * s.chans.toNat ≤ s.slen.toNat - s.chans.toNat := by
  have hframe : (i + 1) * s.chans.toNat ≤ s.slen.toNat :=
    (Nat.mul_le_mul_right _ hi).trans (Nat.div_mul_le_self _ _)
  rw [Nat.succ_mul] at hframe
  omega

/-- Settles O31: the capacity check bounds every count by `SLEN`. -/
theorem embedCountsDoNotOverflow : Obligations.EmbedCountsDoNotOverflow := by
  intro s t h hok
  obtain ⟨msg, mem, -, hcap, -, -, rfl⟩ := exec_embed_next_ok h hok
  refine ⟨hcap, s.available_le, State.embedDone_idx_toNat hcap mem, fun i hi => ?_⟩
  have hle := State.embed_index_le (lt_of_lt_of_le hi hcap)
  exact ⟨hle, lt_of_le_of_lt (hle.trans (Nat.sub_le _ _)) s.slen.isLt⟩

/-! ## What `EMBED` writes (R114, R115) -/

theorem setLsb_zero (p : Sample) : setLsb p 0#1 = p &&& 0xFFFE#16 := BitVec.or_zero

theorem setLsb_toInt (p : Sample) (b : Bit) : (setLsb p b).toInt = 2 * (p.extractLsb' 1 15).toInt + b.toNat :=
  (congrArg sint16 (setLsb_eq_append p b)).trans (sint16_append _ b)

/-- Replacing bit 0 changes a sample's signed value by at most 1 (R104). -/
theorem setLsb_toInt_near (p : Sample) (b : Bit) :
    (setLsb p b).toInt - p.toInt ≤ 1 ∧ p.toInt - (setLsb p b).toInt ≤ 1 := by
  have hnew := setLsb_toInt p b
  have hold := setLsb_toInt p (getLsb p)
  rw [setLsb_getLsb] at hold
  have := b.isLt
  have := (getLsb p).isLt
  omega

/-- Frame bit `i` of the message in `M`, as R114 gives it: a message bit, then zeros. -/
theorem State.frame_getElem? {s : State} {msg : List Byte} (hm : s.message = .ok msg) {i : Nat}
    (hi : i < s.required) : ∃ f, (encodeFrame msg)[i]? = some f ∧
      (i < 8 * s.mlen.toNat → ∃ b, s.mMem.read (i / 8) = some b ∧ f = b.extractLsb' (7 - i % 8) 1) ∧
      (8 * s.mlen.toNat ≤ i → f = 0#1) := by
  obtain ⟨hlen, hcells⟩ := State.message_eq_ok.mp hm
  rw [State.required] at hi
  by_cases hpay : i < 8 * s.mlen.toNat
  · have hj : i / 8 < s.mlen.toNat := by omega
    have hb : msg[i / 8]? = some msg[i / 8] := List.getElem?_eq_getElem (by omega)
    have hbit := encodeFrame_payload msg (i / 8) (i % 8) _ hb (by omega)
    rw [Nat.div_add_mod] at hbit
    exact ⟨_, hbit, fun _ => ⟨_, (hcells _ hj).trans hb, rfl⟩, by omega⟩
  · have hbit := encodeFrame_terminator msg (i - 8 * msg.length) (by omega)
    rw [Nat.add_sub_cancel' (by omega)] at hbit
    exact ⟨0#1, hbit, by omega, fun _ => rfl⟩

/-- What `EMBED`'s loop does from the first frame bit on (`embedBits_eq_ok` at 0). -/
theorem embedBits_zero_eq_ok {stride : Nat} (hs : 0 < stride) {bits : List Bit} {mem mem' : Memory 16}
    (h : embedBits stride mem 0 bits = .ok mem') :
    (∀ k b, bits[k]? = some b → ∃ v, mem.read (k * stride) = some v ∧
      mem'.read (k * stride) = some (setLsb v b)) ∧
    ∀ x, (∀ k, k < bits.length → x ≠ k * stride) → mem'.read x = mem.read x := by
  simpa only [Nat.zero_add] using embedBits_eq_ok hs h

/-- Settles O28: the checks pass and the loop ends; `encode_frame` gives the bit that each sample takes. -/
theorem embedWritesTheFrame : Obligations.EmbedWritesTheFrame := by
  intro s hchans hmod hcap hmsg hsamples
  have hwf := s.malformed_eq_false_iff.mpr ⟨hchans, hmod⟩
  have hpos := State.chans_pos hwf
  obtain ⟨msg, hm⟩ := State.message_isOk fun k hk => Option.isSome_iff_exists.mpr (hmsg k hk)
  obtain ⟨hlen, hcells⟩ := State.message_eq_ok.mp hm
  have hframe : (encodeFrame msg).length = 8 * s.mlen.toNat + 16 := State.length_frame hm
  obtain ⟨mem, he⟩ := embedBits_isOk hpos (i := 0) (bits := encodeFrame msg) fun k hk => by
    rw [Nat.zero_add]
    exact Option.isSome_iff_exists.mpr (hsamples k (by omega))
  obtain ⟨hwritten, hkept⟩ := embedBits_zero_eq_ok hpos he
  have htakes : ∀ {k b v}, (encodeFrame msg)[k]? = some b → s.sMem.read (k * s.chans.toNat) = some v →
      mem.read (k * s.chans.toNat) = some (setLsb v b) := by
    intro k b v hb hv
    obtain ⟨u, hu, hu'⟩ := hwritten k b hb
    cases hu.symm.trans hv
    exact hu'
  refine ⟨s.embedDone mem, exec_embed_ok hwf hcap hm he, State.embedDone_idx_toNat hcap mem,
    fun j b k v hj hb hk hv => ?payload, fun k v hk hv => ?terminator, fun x hx => ?kept, rfl⟩
  case payload => exact htakes (encodeFrame_payload msg j k b ((hcells j hj).symm.trans hb) hk) hv
  case terminator =>
    rw [← setLsb_zero]
    exact htakes (hlen ▸ encodeFrame_terminator msg k hk) hv
  case kept => exact hkept x (by rwa [hframe])

/-- Settles O29: frame bit by frame bit, the accessor's laws on the sample that takes it. -/
theorem embedPostcondition : Obligations.EmbedPostcondition := by
  intro s t h hok
  obtain ⟨msg, mem, hwf, -, hm, he, rfl⟩ := exec_embed_next_ok h hok
  obtain ⟨hwritten, hkept⟩ := embedBits_zero_eq_ok (State.chans_pos hwf) he
  refine ⟨fun i hi => ?_, fun x hx => hkept x (by rwa [State.length_frame hm])⟩
  obtain ⟨f, hf, hpayload, hterminator⟩ := State.frame_getElem? hm hi
  obtain ⟨v, hv, hv'⟩ := hwritten i f hf
  exact ⟨v, setLsb v f, f, hv, hv', hpayload, hterminator, by rw [← getLsb_eq_extract, getLsb_setLsb],
    setLsb_extractLsb'_high v f, setLsb_toInt_near v f⟩

/-! ## A second `EMBED` (R117) -/

/-- The loop run again over the samples it left ends and leaves them as they are: `set_lsb` is idempotent. -/
theorem embedBits_idempotent {stride : Nat} (hs : 0 < stride) {bits : List Bit} {mem out : Memory 16}
    (h : embedBits stride mem 0 bits = .ok out) :
    ∃ out', embedBits stride out 0 bits = .ok out' ∧ ∀ x, out'.read x = out.read x := by
  obtain ⟨hfirst, -⟩ := embedBits_zero_eq_ok hs h
  obtain ⟨out', h'⟩ := embedBits_isOk hs (i := 0) (bits := bits) (mem := out) fun k hk => by
    obtain ⟨v, -, hv⟩ := hfirst k _ (List.getElem?_eq_getElem hk)
    rw [Nat.zero_add, hv]
    rfl
  obtain ⟨hsecond, hkept⟩ := embedBits_zero_eq_ok hs h'
  refine ⟨out', h', fun x => ?_⟩
  by_cases hx : ∃ k < bits.length, x = k * stride
  · obtain ⟨k, hk, rfl⟩ := hx
    obtain ⟨v, -, hv⟩ := hfirst k _ (List.getElem?_eq_getElem hk)
    obtain ⟨u, hu, hu'⟩ := hsecond k _ (List.getElem?_eq_getElem hk)
    cases hu.symm.trans hv
    rw [hu', hu, setLsb_setLsb]
  · exact hkept x fun k hk heq => hx ⟨k, hk, heq⟩

/-- `EMBED` does not write the message (R110). -/
theorem State.embedDone_message (s : State) (mem : Memory 16) : (s.embedDone mem).message = s.message :=
  State.readM_congr (s := s.embedDone mem) (t := s) rfl _ _

/-- Settles O30: the second run passes the same checks and reads the same message, so its loop is the first
one's, run again (`embedBits_idempotent`). -/
theorem embedIsIdempotent : Obligations.EmbedIsIdempotent := by
  intro s t h hok
  obtain ⟨msg, mem, hwf, hcap, hm, he, rfl⟩ := exec_embed_next_ok h hok
  obtain ⟨mem', he', hsame⟩ := embedBits_idempotent (State.chans_pos hwf) he
  have hm' := (s.embedDone_message mem).trans hm
  exact ⟨(s.embedDone mem).embedDone mem', exec_embed_ok (s := s.embedDone mem) hwf hcap hm' he', hsame, rfl⟩

end Sys2Proof.Machine
end

section
/-!
Proofs of the statements about `EXTRACT` (spec/43_extract.md): what it delivers, when it finds nothing, what
`DSTATE` then shows, and that it returns what `EMBED` hid.
-/

namespace Sys2Proof.Machine

/-! ## The channel as a bit source (R123) -/

/-- A list of LSBs of channel 0 is what the scan reads there. -/
theorem State.channelBit_of_stream {s : State} {bits : List Bit}
    (h : ∀ i, i < bits.length → ∃ v, s.sMem.read (i * s.chans.toNat) = some v ∧
      bits[i]? = some (v.extractLsb' 0 1)) (k : Nat) (b : Bit) (hb : bits[k]? = some b) :
    s.channelBit k = .ok b := by
  obtain ⟨v, hv, hlsb⟩ := h k (List.getElem?_eq_some_iff.mp hb).1
  exact State.channelBit_eq_ok.mpr ⟨v, hv, (getLsb_eq_extract v).trans (Option.some.inj (hlsb.symm.trans hb))⟩

/-- A one among the samples of a window is a one among the bits that the scan reads there. -/
theorem State.exists_sample_lsb_one_iff (s : State) (n : Nat) :
    (∃ i v, n - 16 ≤ i ∧ i < n ∧ s.sMem.read (i * s.chans.toNat) = some v ∧ v.extractLsb' 0 1 = 1#1) ↔
      ∃ i, n - 16 ≤ i ∧ i < n ∧ s.channelBit i = .ok 1#1 := by
  simp only [State.channelBit_eq_ok, getLsb_eq_extract, exists_and_left]

/-! ## Extraction (R124, R125, R129) -/

/-- Settles O32: the LSBs are an end of scan with `Found`, and `State.decodeDone_delivers` says what it leaves. -/
theorem extractDeliversMessage : Obligations.ExtractDeliversMessage := by
  intro s bits hchans hmod hle hread hend
  have hwf := s.malformed_eq_false_iff.mpr ⟨hchans, hmod⟩
  have hscan : ScanEnd s.channelBit s.available ⟨.found, bits⟩ :=
    hend.scanEnd (State.channelBit_of_stream hread) hle
  have hlt : bits.length < 2 ^ 32 := lt_of_le_of_lt hle s.available_lt
  exact ⟨s.decodeDone bits, exec_extract_found hwf hscan, s.decodeDone_idx_toNat hlt,
    s.decodeDone_delivers hlt hend, rfl⟩

/-- Settles O33: the LSBs are an exhausted end of scan, and `SLEN / CHANS` does not wrap. -/
theorem extractNoWatermark : Obligations.ExtractNoWatermark := by
  intro s bits hchans hmod hlen hread hnone
  have hwf := s.malformed_eq_false_iff.mpr ⟨hchans, hmod⟩
  have hbound : bits.length = s.available := hlen
  have hscan : ScanEnd s.channelBit s.available ⟨.exhausted, bits⟩ :=
    hbound ▸ hnone.scanEnd (State.channelBit_of_stream hread)
  have hidx : BitVec.ofNat 32 bits.length = s.slen / s.chans :=
    BitVec.eq_of_toNat_eq ((hscan.toNat_length s.available_lt).trans (hlen.trans BitVec.toNat_udiv.symm))
  rw [exec_extract_exhausted hwf hscan, hidx]
  rfl

/-- A scan ends with `Exhausted` if and only if every window of 16 bits within its bound holds a one (R93). -/
theorem ScanEnd.exhausted_iff {src : Nat → Except Fault Bit} {maxBits : Nat} {d : Decoder}
    (h : ScanEnd src maxBits d) :
    d.state = .exhausted ↔
      ∀ n, 16 ≤ n → n ≤ maxBits → ∃ k, n - 16 ≤ k ∧ k < n ∧ src k = .ok 1#1 := by
  obtain ⟨hstate, hterm⟩ | ⟨hstate, hlen, hlast⟩ := h.outcome
  · obtain ⟨h16, hzero⟩ := (termAt_iff le_rfl).mp hterm
    refine ⟨fun hex => absurd (hstate.symm.trans hex) nofun, fun hall => ?_⟩
    obtain ⟨k, hk, hkn, hone⟩ := hall _ h16 h.le
    rw [h.consumed k _ (hzero k hk hkn)] at hone
    cases hone
  · refine ⟨fun _ n hn hle => ?_, fun _ => hstate⟩
    have hfalse : termAt d.acc n = false := by
      rcases Nat.lt_or_eq_of_le (hlen ▸ hle) with hlt | rfl
      · exact h.first n hlt
      · exact hlast
    obtain ⟨k, hk, hkn, hone⟩ := (termAt_eq_false_iff (hlen ▸ hle)).mp hfalse hn
    exact ⟨k, hk, hkn, h.consumed k _ hone⟩

/-- Settles O34: in a well-formed buffer the code tells how the scan ended (`ScanEnd.exhausted_iff`). -/
theorem absenceDetection : Obligations.AbsenceDetection := by
  intro s t h hchans hmod
  have hwf := s.malformed_eq_false_iff.mpr ⟨hchans, hmod⟩
  simp only [State.exists_sample_lsb_one_iff]
  obtain ⟨hbad, -⟩ | ⟨a, -, hscan, rfl⟩ | ⟨a, -, hscan, rfl⟩ := exec_extract_next h
  · rw [hwf] at hbad
    cases hbad
  · exact ⟨nofun, fun hall => nomatch hscan.exhausted_iff.mpr hall⟩
  · exact ⟨fun _ => hscan.exhausted_iff.mp rfl, fun _ => rfl⟩

/-! ## The decoder state at completion (R127) -/

/-- What each command can show when it completes: its result code and the decoder state. -/
def completions : List (Instr × ErrCode × DState) :=
  [(.encf, .ok, .scanning), (.encf, .capacityExceeded, .scanning),
   (.decf, .ok, .found), (.decf, .incomplete, .exhausted),
   (.getlsb, .ok, .scanning), (.setlsb, .ok, .scanning),
   (.embed, .ok, .scanning), (.embed, .capacityExceeded, .scanning), (.embed, .malformedBuffer, .scanning),
   (.extract, .ok, .found), (.extract, .noWatermarkFound, .exhausted), (.extract, .malformedBuffer, .scanning)]

theorem exec_mem_completions {i : Instr} {s t : State} (h : exec i s = .next t) :
    (i, t.status.err, t.status.dstate) ∈ completions := by
  rcases exec_next_cases h with ⟨rfl, rfl⟩ | ⟨rfl, rfl⟩ | ⟨rfl, -, rfl⟩ | ⟨msg, rfl, -, -, rfl⟩ |
    ⟨a, rfl, -, rfl⟩ | ⟨a, rfl, -, rfl⟩ | ⟨rfl | rfl, -, rfl⟩ | ⟨rfl, -, -, rfl⟩ |
    ⟨msg, mem, rfl, -, -, -, -, rfl⟩ | ⟨a, rfl, -, -, rfl⟩ | ⟨a, rfl, -, -, rfl⟩ <;>
  simp [completions, State.failed, State.encfDone, State.embedDone, State.decodeDone]

/-- Settles O36: R127 holds of each completion there is. -/
theorem dstateAtCompletion : Obligations.DstateAtCompletion := by
  intro i s t h
  have hrule : ∀ c ∈ completions,
      (c.2.2 = .found ↔ (c.1 = .decf ∨ c.1 = .extract) ∧ c.2.1 = .ok) ∧
      (c.2.2 = .exhausted ↔
        (c.1 = .extract ∧ c.2.1 = .noWatermarkFound) ∨ (c.1 = .decf ∧ c.2.1 = .incomplete)) ∧
      (c.2.2 = .scanning ↔ (c.1 ≠ .decf ∧ c.1 ≠ .extract) ∨ c.2.1 = .malformedBuffer) := by decide
  exact hrule _ (exec_mem_completions h)

/-! ## Extracting what `EMBED` hid (R128) -/

/-- After `EMBED` the scan reads the frame: each LSB that it wrote is the frame's bit (R114, R123). -/
theorem State.embedDone_channelBit {s : State} {msg : List Byte} {mem : Memory 16} (hwf : s.malformed = false)
    (he : embedBits s.chans.toNat s.sMem 0 (encodeFrame msg) = .ok mem) {k : Nat} {b : Bit}
    (hb : (encodeFrame msg)[k]? = some b) : (s.embedDone mem).channelBit k = .ok b := by
  obtain ⟨hwritten, -⟩ := embedBits_zero_eq_ok (State.chans_pos hwf) he
  obtain ⟨v, -, hv⟩ := hwritten k b hb
  exact State.channelBit_eq_ok.mpr ⟨setLsb v b, hv, getLsb_setLsb v b⟩

/-- A source that begins with the frame is scanned up to the frame's first terminator. -/
theorem exists_scanEnd_encodeFrame (msg : List Byte) {src : Nat → Except Fault Bit} {maxBits : Nat}
    (hsrc : ∀ k b, (encodeFrame msg)[k]? = some b → src k = .ok b)
    (hle : (encodeFrame msg).length ≤ maxBits) :
    ∃ m ≤ (encodeFrame msg).length, EndsAtFirstTerminator ((encodeFrame msg).take m) ∧
      ScanEnd src maxBits ⟨.found, (encodeFrame msg).take m⟩ := by
  obtain ⟨m, hm, hend⟩ := exists_firstTerminator le_rfl (termAt_encodeFrame msg)
  refine ⟨m, hm, hend, hend.scanEnd (fun k b hb => hsrc k b ?_) ((List.length_take_le' _ _).trans hle)⟩
  rw [List.getElem?_take] at hb
  exact (Option.ite_none_right_eq_some.mp hb).2

/-- Settles O60: the scan ends at the frame's first terminator, and both sides say that this lies beyond the payload
and 8 zeros. -/
theorem embedExtractInGeneral : Obligations.EmbedExtractInGeneral := by
  intro s t h hok
  obtain ⟨msg, mem, hwf, hcap, hm, he, rfl⟩ := exec_embed_next_ok h hok
  have hbit := fun k b => State.embedDone_channelBit (k := k) (b := b) hwf he
  have hfits : (encodeFrame msg).length ≤ s.available := (State.length_frame hm).trans_le hcap
  obtain ⟨m, hle, hend, hscan⟩ := exists_scanEnd_encodeFrame msg hbit hfits
  have hlt : ((encodeFrame msg).take m).length < 2 ^ 32 := hscan.le.trans_lt s.available_lt
  refine ⟨(s.embedDone mem).decodeDone ((encodeFrame msg).take m),
    exec_extract_found (s := s.embedDone mem) hwf hscan, rfl, rfl, ?_⟩
  have hreturns := (State.decodeDone_returns_iff hm (s.embedDone mem) hlt).trans
    ((messageOf_encodeFrame_eq_iff hend hle).trans (hend.lt_iff hle))
  rw [(State.message_eq_ok.mp hm).1] at hreturns
  refine hreturns.trans (forall_congr' fun n => imp_congr_right fun _ => imp_congr_right fun hn => ?_)
  refine Iff.trans (exists_congr fun k => and_congr_right fun _ => and_congr_right fun hk => ?_)
    ((s.embedDone mem).exists_sample_lsb_one_iff n).symm
  have hkf : k < (encodeFrame msg).length := by
    rw [State.length_frame hm, State.required]
    omega
  rw [hbit k _ (List.getElem?_eq_getElem hkf), List.getElem?_eq_getElem hkf, Option.some.injEq, Except.ok.injEq]

theorem exists_bit_one_of_ne_zero {b : Byte} (h : b ≠ 0#8) : ∃ k < 8, b.extractLsb' (7 - k) 1 = 1#1 := by
  by_contra hnone
  refine h (byte_eq_of_bits fun k hk => ?_)
  rw [BitVec.extractLsb'_zero]
  exact (bit_cases _).resolve_right fun hone => hnone ⟨k, hk, hone⟩

/-- A byte of the message that is no null byte puts a one into the LSBs that it fills (R115). -/
theorem exec_embed_lsb_one_of_ne_zero {s t : State} (h : exec .embed s = .next t) (hok : t.status.err = .ok)
    {j : Nat} (hj : j < s.mlen.toNat) (hne : s.mMem.read j ≠ some 0#8) :
    ∃ k < 8, ∃ v, t.sMem.read ((8 * j + k) * s.chans.toNat) = some v ∧ v.extractLsb' 0 1 = 1#1 := by
  obtain ⟨hlsb, -⟩ := embedPostcondition s t h hok
  have hbits : ∀ k < 8, ∃ v b, t.sMem.read ((8 * j + k) * s.chans.toNat) = some v ∧
      s.mMem.read j = some b ∧ v.extractLsb' 0 1 = b.extractLsb' (7 - k) 1 := by
    intro k hk
    obtain ⟨_, v, f, -, hv, hpayload, -, hf, -⟩ := hlsb (8 * j + k) (by omega)
    obtain ⟨b, hb, rfl⟩ := hpayload (by omega)
    rw [show (8 * j + k) / 8 = j by omega] at hb
    rw [show (8 * j + k) % 8 = k by omega] at hf
    exact ⟨v, b, hv, hb, hf⟩
  obtain ⟨_, b, -, hb, -⟩ := hbits 0 (by decide)
  obtain ⟨k, hk, hone⟩ := exists_bit_one_of_ne_zero fun h0 => hne (h0 ▸ hb)
  obtain ⟨v, c, hv, hc, hbit⟩ := hbits k hk
  obtain rfl : b = c := Option.some.inj (hb.symm.trans hc)
  exact ⟨k, hk, v, hv, hbit.trans hone⟩

/-- Settles O35: a window of 16 bits that ends within the payload and 8 zeros takes in a whole byte of the message,
which is no null byte, so that no terminator is early (`embedExtractInGeneral`). -/
theorem embedExtractRoundTrip : Obligations.EmbedExtractRoundTrip := by
  intro s t h hok hnull
  obtain ⟨u, hexec, hstatus, hS, hreturns⟩ := embedExtractInGeneral s t h hok
  have hnoEarly : ∀ n, 16 ≤ n → n ≤ 8 * s.mlen.toNat + 8 → ∃ i v, n - 16 ≤ i ∧ i < n ∧
      t.sMem.read (i * s.chans.toNat) = some v ∧ v.extractLsb' 0 1 = 1#1 := by
    intro n hn hle
    obtain ⟨j, hj, hfirst, hlast⟩ : ∃ j < s.mlen.toNat, n - 16 ≤ 8 * j ∧ 8 * j + 8 ≤ n :=
      ⟨(n - 16 + 7) / 8, by omega, by omega, by omega⟩
    obtain ⟨k, hk, v, hv, hone⟩ := exec_embed_lsb_one_of_ne_zero h hok hj (hnull j hj)
    exact ⟨8 * j + k, v, by omega, by omega, hv, hone⟩
  obtain ⟨hmlen, hread⟩ := hreturns.mpr hnoEarly
  have hM : t.mMem = s.mMem := (congrArg State.mMem (exec_eq_overwrite h)).trans rfl
  refine ⟨u, hexec, hstatus, hmlen, fun j => ?_, hS⟩
  rcases Nat.lt_or_ge j s.mlen.toNat with hj | hj
  · exact hread j hj
  · rw [exec_mMem_read_of_le hexec (hmlen ▸ hj), hM]

end Sys2Proof.Machine
end

section
/-!
Proofs of the statements about exceptions (spec/60_exceptions.md): the result codes and their conditions, and that a
failure changes and leaves nothing else.
-/

namespace Sys2Proof.Machine

/-! ## Illegal words (R143) -/

/-- Settles O6: the command cycle of a word that decodes to no command. -/
theorem illegalWordOnlyReports : Obligations.IllegalWordOnlyReports := fun _ _ _ h hb hd =>
  (step_command h hb).trans (State.issue_illegal hd _)

/-! ## Result codes and their conditions (R140, R145) -/

/-- Settles O19: the code tells how the scan of `F` ended (`ScanEnd.exhausted_iff`). -/
theorem decfIncompleteIffNoRun : Obligations.DecfIncompleteIffNoRun := by
  intro s t h
  simp only [← State.frameBit_eq_ok]
  obtain ⟨a, hscan, rfl⟩ | ⟨a, hscan, rfl⟩ := exec_decf_next h
  · exact ⟨.inr rfl, nofun, fun hall => nomatch hscan.exhausted_iff.mpr hall⟩
  · exact ⟨.inl rfl, fun _ => hscan.exhausted_iff.mp rfl, fun _ => rfl⟩

/-- `EMBED` checks the buffer before the capacity (R145). -/
theorem exec_embed_err {s t : State} (h : exec .embed s = .next t) :
    t.status.err = if s.chans.toNat = 0 ∨ s.slen.toNat % s.chans.toNat ≠ 0 then .malformedBuffer
      else if s.available < s.required then .capacityExceeded else .ok := by
  rcases exec_embed_cases s with ⟨hbad, e⟩ | ⟨hwf, hcap, e⟩ | ⟨msg, mem, hwf, hcap, -, -, e⟩ |
    ⟨r, -, -, -, e⟩ | ⟨r, msg, -, -, -, -, e⟩ <;> rw [e] at h <;> cases h
  · exact (if_pos (s.malformed_iff.mp hbad)).symm
  · rw [if_neg (mt s.malformed_iff.mpr (Bool.eq_false_iff.mp hwf)), if_pos hcap]
    rfl
  · rw [if_neg (mt s.malformed_iff.mpr (Bool.eq_false_iff.mp hwf)), if_neg (not_lt.mpr hcap)]
    rfl

theorem exec_encf_err {s t : State} (h : exec .encf s = .next t) :
    t.status.err = if 2 ^ 32 - 1 < s.required then .capacityExceeded else .ok := by
  rcases exec_encf_cases s with ⟨hlong, e⟩ | ⟨msg, hfits, -, e⟩ | ⟨r, -, -, e⟩ <;> rw [e] at h <;> cases h
  · exact (if_pos hlong).symm
  · exact (if_neg (not_lt.mpr hfits)).symm

/-- Settles O38: the checks of `EMBED` and `ENCF` in their order, and the only outcome of the accessor commands. -/
theorem resultCodesWithoutScan : Obligations.ResultCodesWithoutScan := by
  refine fun s t => ⟨exec_embed_err, exec_encf_err, fun h => ?_, fun h => ?_⟩
  · rw [exec_getlsb] at h
    cases h
    rfl
  · rw [exec_setlsb] at h
    cases h
    rfl

/-! ## A failure changes `STATUS` and `IDX` only (R144) -/

/-- `DSTATE` of a legal failure tells whether a scan was exhausted (R127). -/
theorem State.dstate_of_failure {t : State} (hlegal : t.statusLegal) (herr : t.status.err ≠ .ok) :
    t.status.dstate =
      if t.status.err = .noWatermarkFound ∨ t.status.err = .incomplete then .exhausted else .scanning := by
  obtain ⟨-, -, hfound, hexhausted, -⟩ := hlegal
  split
  case isTrue hcode => exact hexhausted.mpr hcode
  case isFalse hcode =>
    cases hds : t.status.dstate with
    | scanning => rfl
    | found => exact absurd (hfound hds) herr
    | exhausted => exact absurd (hexhausted.mp hds) hcode

/-- `IDX` of a failed command: the bound of the exhausted scan, and 0 where there was no scan (R18, R140). -/
theorem exec_idx_of_failure {i : Instr} {s t : State} (h : exec i s = .next t) (herr : t.status.err ≠ .ok) :
    t.idx.toNat = if t.status.err = .noWatermarkFound then s.available
      else if t.status.err = .incomplete then s.flen.toNat else 0 := by
  obtain ⟨-, -, -, -, hdecf, hextract, -⟩ := idxAtCompletion s t
  obtain ⟨-, -, -, -, -, hzero⟩ := exec_acc_statusLegal h
  have hscans : ∀ c ∈ completions, (c.2.1 = .noWatermarkFound → c.1 = .extract) ∧
      (c.2.1 = .incomplete → c.1 = .decf) := by decide
  obtain ⟨hisExtract, hisDecf⟩ := hscans _ (exec_mem_completions h)
  cases he : t.status.err with
  | ok => exact absurd he herr
  | capacityExceeded => exact congrArg BitVec.toNat (hzero (.inl he))
  | malformedBuffer => exact congrArg BitVec.toNat (hzero (.inr (.inl he)))
  | illegalCommand => exact congrArg BitVec.toNat (hzero (.inr (.inr he)))
  | noWatermarkFound => exact hextract (hisExtract he ▸ h) he
  | incomplete => exact congrArg BitVec.toNat (hdecf (hisDecf he ▸ h) he)

/-- The command cycle of any word, when it fails: `STATUS` and `IDX` are those of its code, all else is as before. -/
theorem State.issue_failed {s t : State} {w : Word} (h : s.issue w = .next t) (herr : t.status.err ≠ .ok) :
    (∃ e ds x, t = s.failed e ds x) ∧ t.statusLegal ∧
      t.idx.toNat = if t.status.err = .noWatermarkFound then s.available
        else if t.status.err = .incomplete then s.flen.toNat else 0 := by
  cases hd : decode w with
  | some i =>
    rw [State.issue_legal hd] at h
    exact ⟨exec_next_failed h herr, (exec_acc_statusLegal h).2, exec_idx_of_failure h herr⟩
  | none =>
    rw [State.issue_illegal hd, State.illegalCommand_eq_failed] at h
    cases h
    exact ⟨⟨_, _, _, rfl⟩, State.failed_statusLegal (.inl ⟨rfl, rfl, nofun, nofun⟩), rfl⟩

/-- Settles O37: the step is the command cycle of the state whose script has moved on. -/
theorem failedCommandIsPrecise : Obligations.FailedCommandIsPrecise := by
  intro s t w rest hscript hbusy hstep herr
  have hissue := (step_command hscript hbusy).symm.trans hstep
  obtain ⟨⟨e, ds, x, rfl⟩, hlegal, hidx⟩ := State.issue_failed hissue herr
  exact ⟨rfl, rfl, rfl, State.dstate_of_failure hlegal herr, hidx⟩

/-! ## A failure leaves nothing to clear (R147, R163) -/

/-- Settles O41: the failure changed only what the next acceptance sets (`exec_eq_of_accept_eq`). -/
theorem failureLeavesNothingToClear : Obligations.FailureLeavesNothingToClear := by
  intro i j s t h herr
  obtain ⟨e, ds, x, rfl⟩ := exec_next_failed h herr
  exact exec_eq_of_accept_eq rfl j

end Sys2Proof.Machine
end

section
/-!
Proofs of the statements about reset, the busy core and the end of the host's script
(spec/70_reset_and_hazards.md).
-/

namespace Sys2Proof.Machine

/-! ## Reset (R160, R161) -/

/-- Settles O48: the reset action of an idle core is `State.resetRegisters`. -/
theorem resetInputRestoresRegisters : Obligations.ResetInputRestoresRegisters := fun _ _ h hb =>
  step_cons_idle h hb

/-- Everything that reset can leave of a command it meets (R161): nothing but the registers' reset values, when the
word was illegal, or the command had no cell to write or would have failed; else drawn cells in its write set. -/
theorem State.abandon_next {s t : State} {w : Word} (h : s.abandon w = .next t) :
    t = s.resetRegisters ∨ ∃ i u, decode w = some i ∧ exec i s = .next u ∧ u.status.err = .ok ∧
      ((i = .encf ∧ t = { s.resetRegisters with
          fMem := s.fMem.writeFrom 0 (drawn Config.freeBit s.draws u.flen.toNat)
          draws := s.draws + u.flen.toNat }) ∨
        ((i = .decf ∨ i = .extract) ∧ t = { s.resetRegisters with
          mMem := s.mMem.writeFrom 0 (drawn Config.freeByte s.draws u.mlen.toNat)
          draws := s.draws + u.mlen.toNat }) ∨
        (i = .embed ∧ t = { s.resetRegisters with
          sMem := drawSamples s.chans.toNat u.sMem s.draws s.sMem 0 u.idx.toNat
          draws := s.draws + u.idx.toNat })) := by
  unfold State.abandon at h
  split at h
  case h_1 => cases h; exact .inl rfl
  case h_2 i hd =>
    split at h <;> cases h
    next u hu =>
      by_cases hok : u.status.err = .ok
      · simp only [State.abandoned, if_pos hok]
        cases i with
        | getlsb | setlsb => exact .inl rfl
        | encf => exact .inr ⟨_, u, hd, hu, hok, .inl ⟨rfl, rfl⟩⟩
        | decf => exact .inr ⟨_, u, hd, hu, hok, .inr (.inl ⟨.inl rfl, rfl⟩)⟩
        | extract => exact .inr ⟨_, u, hd, hu, hok, .inr (.inl ⟨.inr rfl, rfl⟩)⟩
        | embed => exact .inr ⟨_, u, hd, hu, hok, .inr (.inr ⟨rfl, rfl⟩)⟩
      · exact .inl (if_neg hok)

/-- Only the `n` cells that take a drawn value can change. -/
theorem lt_of_read_writeFrom_drawn_ne {w : Nat} {mem : Memory w} {free : Nat → BitVec w} {k n x : Nat}
    (h : (mem.writeFrom 0 (drawn free k n)).read x ≠ mem.read x) : x < n := by
  by_contra hx
  rw [Memory.read_writeFrom, length_drawn, if_neg (by omega)] at h
  exact h rfl

/-- Settles O49: each outcome of `State.abandon_next` changes cells of one space at most: those that were drawn, as
many as the command's completion would have counted. -/
theorem resetDuringCommand : Obligations.ResetDuringCommand := by
  intro s t w rest hscript hbusy hstep
  have h : State.abandon { s with script := rest } w = .next t := (step_cons_idle hscript hbusy).symm.trans hstep
  obtain rfl | ⟨i, u, hd, hu, hok, ⟨rfl, rfl⟩ | ⟨hi, rfl⟩ | ⟨rfl, rfl⟩⟩ := State.abandon_next h
  · exact ⟨rfl, fun _ hx => absurd rfl hx, fun _ hx => absurd rfl hx, fun _ hx => absurd rfl hx⟩
  · refine ⟨rfl, fun _ hx => absurd rfl hx, fun x hx => ⟨hd, ?_⟩, fun _ hx => absurd rfl hx⟩
    obtain ⟨msg, hr, -, rfl⟩ := exec_encf_next_ok hu hok
    exact lt_of_lt_of_eq (lt_of_read_writeFrom_drawn_ne hx) (State.encfDone_idx_toNat hr msg)
  · exact ⟨rfl, fun _ hx => absurd rfl hx, fun _ hx => absurd rfl hx,
      fun x hx => ⟨i, u, hd, hi, hu, hok, lt_of_read_writeFrom_drawn_ne hx⟩⟩
  · refine ⟨rfl, fun x hx => ⟨hd, ?_⟩, fun _ hx => absurd rfl hx, fun _ hx => absurd rfl hx⟩
    obtain hold | ⟨j, hj, hxj, hnew⟩ := read_drawSamples s.chans.toNat u.sMem s.draws s.sMem 0 u.idx.toNat x
    · exact absurd hold hx
    · obtain ⟨msg, mem, -, hcap, -, -, rfl⟩ := exec_embed_next_ok hu hok
      exact ⟨⟨j, lt_of_lt_of_eq hj (State.embedDone_idx_toNat hcap mem), by rwa [Nat.zero_add] at hxj⟩,
        _, hu, hok, hnew⟩

/-! ## The host while `BUSY = 1` (R166) -/

/-- With `BUSY = 1` a step performs the next host action as the busy core takes it (R166). -/
theorem step_cons_busy {s : State} {a : HostAction} {rest : List HostAction} (h : s.script = a :: rest)
    (hb : s.status.busy = true) : step s = { s with script := rest }.busyAction a :=
  (step_cons h).trans (State.hostAction_busy (s := { s with script := rest }) hb a)

/-- A busy core refuses everything but a read of `STATUS` (R166). -/
theorem State.busyAction_refused (s : State) {a : HostAction} (h : a ≠ .rd 1) :
    ∃ r, s.busyAction a = .refused r := by
  cases a with
  | rd n => exact ⟨_, if_neg fun hn => h (congrArg HostAction.rd hn)⟩
  | wr _ _ | ws _ _ | rs _ | wm _ _ | rm _ | wf _ _ | rf _ | reset | abandon _ => exact ⟨_, rfl⟩

/-- Settles O56: the word that a busy core returns is packed from `BUSY = 1`, `DONE = 0` and free values. -/
theorem busyHazard : Obligations.BusyHazard := by
  intro s a rest hscript hbusy
  rw [step_cons_busy hscript hbusy]
  refine ⟨State.busyAction_refused _, ?_⟩
  rintro rfl
  obtain ⟨hlow, -, -, hhigh⟩ := packStatus_fields true false (Config.freeErr s.draws) (Config.freeDstate s.draws)
  exact ⟨busyStatusWord s.draws, packStatus_busy _ _ _ _, packStatus_done _ _ _ _, hlow, hhigh, rfl⟩

/-! ## Final states (R171) -/

/-- Settles O7: the end of the script of an idle core. -/
theorem finishedScriptStaysIdle : Obligations.FinishedScriptStaysIdle := fun _ => step_nil

/-- A step that performs an action takes it off the script, so it changes the state. -/
theorem script_eq_nil_of_step_eq_self {s : State} (h : step s = .next s) : s.script = [] := by
  cases hscript : s.script with
  | nil => rfl
  | cons a rest =>
    rw [step_cons hscript] at h
    have hrest : s.script = rest := State.hostAction_script h
    exact absurd (hscript.symm.trans hrest) (List.cons_ne_self a rest)

/-- Settles O59: a state that a step leaves as it is has no action left, and with `BUSY = 1` it would be refused. -/
theorem finalStates : Obligations.FinalStates := by
  refine ⟨fun s => ⟨fun h => ?_, fun ⟨hscript, hbusy⟩ => step_nil hscript hbusy⟩, fun _ => step_nil_busy⟩
  have hscript := script_eq_nil_of_step_eq_self h
  refine ⟨hscript, Bool.eq_false_iff.mpr fun hbusy => ?_⟩
  rw [step_nil_busy hscript hbusy] at h
  cases h

end Sys2Proof.Machine
end

section
/-!
Proofs of the statements on the round trip of command words (spec/30_encoding.md R62, R64), on the listed words
(spec/95_test_vectors.md section 2.6) and on host reads of unwritten cells (spec/93_implementation_defined.md U1).
-/

namespace Sys2Proof

/-! ## Command words (R60, R62, R64) -/

/-- A command has no operand that could be out of range (R61). -/
@[simp] theorem Instr.wellFormed_eq_true (i : Instr) : i.wellFormed = true := by
  cases i <;> rfl

/-- Settles O3: each command's word decodes to it, and its fields `ZERO` and `OPC` are the whole word, so no other
word does. -/
theorem decodeInvertsEncode : Obligations.DecodeInvertsEncode :=
  ⟨fun i _ => decode_encode i, fun _ i h => ⟨i.wellFormed_eq_true, encode_of_decode h⟩⟩

/-- With `ZERO` = 0 an operation code outside 1 to 6 makes the word illegal (R64). -/
theorem decode_eq_none_of_opcField {w : Word} (hz : zeroField w = 0#24)
    (hc : (opcField w).toNat = 0 ∨ 7 ≤ (opcField w).toNat) : decode w = none :=
  (decode_eq_lookup hz rfl).trans (opcTable_lookup_eq_none hc)

/-- Settles O4: three words are match values, two have an operation code at an end of the table, and three have a
bit set in `ZERO`. -/
theorem listedWordsDecode : Obligations.ListedWordsDecode := by
  refine ⟨decode_encode .encf, decode_encode .getlsb, decode_encode .extract, ?_, ?_, ?_, ?_, ?_⟩
  · exact decode_eq_none_of_opcField (by decide) (.inl (by decide))
  · exact decode_eq_none_of_opcField (by decide) (.inr (by decide))
  all_goals exact decode_eq_none_of_zeroField_ne (by decide)

end Sys2Proof

namespace Sys2Proof.Machine

/-! ## Host reads of unwritten cells (U1) -/

/-- A host read of a cell that nothing has written stops at that cell (U1). -/
theorem State.collect_of_unwritten {w : Nat} {mem : Memory w} {i : Nat} (h : mem.read i = none)
    (s : State) (wrap : BitVec w → ReadData) (sp : Space) :
    s.collect wrap (mem.fetch sp i) = .fault (.unwrittenCell sp i) := by
  rw [Memory.fetch_eq_error.mpr ⟨h, rfl⟩]
  rfl

/-- Settles O55: in each space the step is the host's read, which `State.collect_of_unwritten` stops. -/
theorem unwrittenCellReadFaults : Obligations.UnwrittenCellReadFaults := fun _ _ _ hb =>
  ⟨fun h hv => (step_cons_idle h hb).trans (State.collect_of_unwritten hv _ _ _),
    fun h hv => (step_cons_idle h hb).trans (State.collect_of_unwritten hv _ _ _),
    fun h hv => (step_cons_idle h hb).trans (State.collect_of_unwritten hv _ _ _)⟩

end Sys2Proof.Machine
end
